-- ==== Sys2Proof/Word.lean ====
section
/-! DEFINITION. The word and byte types of RUX86 (spec 00_scope.md R5, R6). -/

namespace Sys2Proof

/-- A word: 32 bits, bit 31 most significant (R6). Registers, EIP, addresses, immediates, scales and
displacements are words (R5). -/
abbrev Word := BitVec 32

/-- A byte, the unit in which the model keeps memory and the serialised terms. -/
abbrev Byte := BitVec 8

/-- `MIN_INT`, the least 32-bit two's complement integer (R6). -/
abbrev minInt : Word := 0x80000000#32

end Sys2Proof
end

