-- ==== Sys2Proof/Config.lean ====
section
/-! DEFINITION. What the spec leaves to an implementation (00_scope.md section 4, the parameter table):
the four policies, the numeric parameters with the spec's defaults, and the free values. -/

namespace Sys2Proof.Config

/-- What a shift count outside 0..31 does (42_bit_manipulation.md R104). -/
inductive ShiftCountPolicy where
  /-- `ShiftCountFault`; the spec's default. -/
  | fault
  /-- The low five bits are the count. PRESUMED by the spec itself (general knowledge, G9); log 7. -/
  | mask5
  deriving DecidableEq, Repr

/-- OF after Shl by 1 when the top two bits of DEST are equal (42_bit_manipulation.md R101). -/
inductive Shl1OfPolicy where
  /-- A draw from the old OF and 0; the spec's default. -/
  | either
  /-- OF keeps its value. -/
  | unchanged
  /-- OF becomes 0 (general knowledge, G10); log 7. -/
  | cleared
  deriving DecidableEq, Repr

/-- Push, Pop and Call whose operand mentions ESP (30_encoding.md R69). -/
inductive EspOperandPolicy where
  /-- Such a term is ill-formed; the spec's default. -/
  | refuse
  /-- Push and Call read their operand with the old ESP; Pop increments ESP before it evaluates and
  writes DEST (general knowledge, G7); log 7. -/
  | ia32Order
  /-- The source's statements one after the other. -/
  | sequential
  deriving DecidableEq, Repr

/-- OF of Sub and Cmp when SRC = MIN_INT (40_arithmetic.md R82). -/
inductive SubMinIntOf where
  /-- OF = 1, the source's own clause; the spec's default. -/
  | source
  /-- The clause is dropped (general knowledge, G8); log 7. -/
  | trueOverflow
  deriving DecidableEq, Repr

/-- The parameters of 00_scope.md section 4 that are not the program itself. -/
structure Params where
  /-- `MEM_LO`, lowest valid word address (20_memory.md R32). -/
  memLo : Word
  /-- `MEM_HI`, highest valid word address (20_memory.md R32). -/
  memHi : Word
  /-- `ENTRY`, where a run starts (10_state.md R21). -/
  entry : Word
  /-- `ESP_INIT`, ESP at launch (10_state.md R21). -/
  espInit : Word
  /-- `HALT_ADDR`, the address that ends a run (60_exceptions.md R150). -/
  haltAddr : Word
  shiftCount : ShiftCountPolicy
  shl1Of : Shl1OfPolicy
  espOperand : EspOperandPolicy
  subMinIntOf : SubMinIntOf
  deriving DecidableEq, Repr

/-- `CODE_BASE` of the reference layout RL4 (20_memory.md R41). -/
def codeBase : Word := 0x00001000#32

/-- The spec's defaults (00_scope.md section 4, third column). -/
def Params.default : Params where
  memLo := 0xFFFFF000#32
  memHi := 0xFFFFFFFC#32
  entry := codeBase
  espInit := 0xFFFFFFFC#32
  haltAddr := 0x00000000#32
  shiftCount := .fault
  shl1Of := .either
  espOperand := .refuse
  subMinIntOf := .source

/-- The premises the spec puts on the parameters: `MEM_LO`, `MEM_HI` aligned and in order (20_memory.md
R32), `ESP_INIT` aligned and inside the window (70_reset_and_hazards.md R160). -/
abbrev Params.wf (p : Params) : Prop :=
  p.memLo.toNat % 4 = 0 ∧ p.memHi.toNat % 4 = 0 ∧ p.memLo.toNat ≤ p.memHi.toNat ∧
  p.espInit.toNat % 4 = 0 ∧ p.memLo.toNat ≤ p.espInit.toNat ∧ p.espInit.toNat ≤ p.memHi.toNat

/-- FREE VALUE: the bit of the n-th draw (00_scope.md R7, `draw`). Nothing is known of it, so whatever
is proved holds for every outcome of every draw: SF and ZF after Imul (40_arithmetic.md R83; log 8), OF
after Shl by 1 under `Either` (42_bit_manipulation.md R101; log 9). -/
opaque freeBit : Nat → Bool

/-- DESIGN CHOICE (log 3), unsafe: what a byte of memory that nothing has written reads as. The spec
says only that it is arbitrary and must not be taken as 0 (70_reset_and_hazards.md R160). -/
def unlistedByte : Byte := 0xA5#8

end Sys2Proof.Config
end

