-- ==== Sys2Proof/Syntax.lean ====
section
/-! DEFINITION. Instruction terms (30_encoding.md R50 to R60): a mnemonic and its operands, sources
first, destination last. The operand slots are typed as operands, so ill-formed terms can be written;
`WellFormed` tells them apart (R62, R70). -/

namespace Sys2Proof

/-- The eight registers (10_state.md R10), in the order of the source's table, which means nothing. -/
inductive Reg where
  | eax | ebx | ecx | edx | esi | edi | ebp | esp
  deriving DecidableEq, Repr

/-- The eight condition codes (30_encoding.md R60). -/
inductive CondCode where
  | eq | zero | notEq | notZero | slt | sge | sle | sgt
  deriving DecidableEq, Repr

/-- A label (30_encoding.md R55): a name that the loader resolves. DESIGN CHOICE (log 17): the names are
the numbers below 2^32. Nothing computes with them. -/
abbrev Label := Fin 4294967296

/-- A displacement: `(int32 | Label)` (30_encoding.md R56). -/
inductive Disp where
  | word (w : Word)
  | label (l : Label)
  deriving DecidableEq, Repr

/-- An indirect address: three optional components; index and scale come together (30_encoding.md R56). -/
structure Ind where
  base : Option Reg
  index : Option (Reg × Word)
  disp : Option Disp
  deriving DecidableEq, Repr

/-- The four operand kinds (30_encoding.md R53). -/
inductive Operand where
  | imm (i : Word)
  | lbl (l : Label)
  | reg (r : Reg)
  | ind (m : Ind)
  deriving DecidableEq, Repr

/-- The 21 instructions (30_encoding.md R51), operands in the order of the source's headers. -/
inductive Instr where
  | neg (dst : Operand)
  | add (src dst : Operand)
  | sub (src dst : Operand)
  | imul (src dst : Operand)
  | not (dst : Operand)
  | and (src dst : Operand)
  | or (src dst : Operand)
  | xor (src dst : Operand)
  | sar (amt dst : Operand)
  | shl (amt dst : Operand)
  | shr (amt dst : Operand)
  | setb (cc : CondCode) (dst : Operand)
  | lea (src dst : Operand)
  | mov (src dst : Operand)
  | push (src : Operand)
  | pop (dst : Operand)
  /-- `Cmp SRC2 SRC1`: the subtrahend is written first (90_conflicts.md C2). -/
  | cmp (src2 src1 : Operand)
  | jmp (src : Operand)
  | call (src : Operand)
  | ret
  | j (cc : CondCode) (target : Operand)
  deriving DecidableEq, Repr

end Sys2Proof
end

