-- ==== Sys2Proof/WellFormed.lean ====
section
/-! DEFINITION. Which terms are well-formed (30_encoding.md R62, R66 to R70): one check per reason of
R70, in R70's order. -/

namespace Sys2Proof

/-- The eleven refusal reasons of 30_encoding.md R70. -/
inductive IllFormedReason where
  /-- (1) DEST is Imm or Lbl. -/
  | destNotLocation
  /-- (2) Two Ind operands. -/
  | twoIndirect
  /-- (3) The index of an Ind is ESP. -/
  | indexEsp
  /-- (4) AMT is not Imm and not Reg ECX. -/
  | badAmount
  /-- (5) Imul's second operand is not Reg. -/
  | imulDestNotReg
  /-- (6) Lea's first operand is not Ind. -/
  | leaSourceNotInd
  /-- (7) Lea's DEST is not Reg. -/
  | leaDestNotReg
  /-- (8) J's target is not Lbl. -/
  | targetNotLabel
  /-- (9) A label is unresolved. -/
  | unresolvedLabel
  /-- (10) Push, Pop or Call operand mentions ESP under `EspOperandPolicy = Refuse`. -/
  | mentionsEsp
  /-- (11) A tag or condition-code number outside 1..21 or 1..8; only a decoder can meet one. -/
  | badNumber
  deriving DecidableEq, Repr

/-- R70's own number of a reason. -/
def IllFormedReason.number : IllFormedReason → Nat
  | .destNotLocation => 1
  | .twoIndirect => 2
  | .indexEsp => 3
  | .badAmount => 4
  | .imulDestNotReg => 5
  | .leaSourceNotInd => 6
  | .leaDestNotReg => 7
  | .targetNotLabel => 8
  | .unresolvedLabel => 9
  | .mentionsEsp => 10
  | .badNumber => 11

/-- `Reg` and `Ind` denote locations, `Imm` and `Lbl` do not (R59). -/
def Operand.isLocation : Operand → Bool
  | .reg _ => true
  | .ind _ => true
  | .imm _ => false
  | .lbl _ => false

def Operand.isReg : Operand → Bool
  | .reg _ => true
  | .ind _ => false
  | .imm _ => false
  | .lbl _ => false

def Operand.isInd : Operand → Bool
  | .ind _ => true
  | .reg _ => false
  | .imm _ => false
  | .lbl _ => false

def Operand.isLbl : Operand → Bool
  | .lbl _ => true
  | .reg _ => false
  | .ind _ => false
  | .imm _ => false

/-- "AMT must be a Imm or ECX operand" (R67). -/
def Operand.isAmount : Operand → Bool
  | .imm _ => true
  | .reg r => r == .ecx
  | .ind _ => false
  | .lbl _ => false

/-- "The index component cannot be ESP" (R56). -/
def Operand.indexIsEsp : Operand → Bool
  | .ind m => (m.index.map Prod.fst) == some .esp
  | .reg _ => false
  | .imm _ => false
  | .lbl _ => false

/-- An operand mentions ESP when it is `Reg ESP` or an Ind whose base is ESP (R69). -/
def Operand.mentionsEsp : Operand → Bool
  | .reg r => r == .esp
  | .ind m => m.base == some .esp
  | .imm _ => false
  | .lbl _ => false

def Disp.labels : Disp → List Label
  | .label l => [l]
  | .word _ => []

/-- The labels an operand uses. -/
def Operand.labels : Operand → List Label
  | .lbl l => [l]
  | .ind m => (m.disp.map Disp.labels).getD []
  | .reg _ => []
  | .imm _ => []

/-- All operands of a term, as written. -/
def Instr.operands : Instr → List Operand
  | .neg d => [d]
  | .add s d => [s, d]
  | .sub s d => [s, d]
  | .imul s d => [s, d]
  | .not d => [d]
  | .and s d => [s, d]
  | .or s d => [s, d]
  | .xor s d => [s, d]
  | .sar a d => [a, d]
  | .shl a d => [a, d]
  | .shr a d => [a, d]
  | .setb _ d => [d]
  | .lea m d => [m, d]
  | .mov s d => [s, d]
  | .push s => [s]
  | .pop d => [d]
  | .cmp s2 s1 => [s2, s1]
  | .jmp s => [s]
  | .call s => [s]
  | .ret => []
  | .j _ t => [t]

/-- The operand in a slot that R62's table calls "location". Imul and Lea have reasons of their own for
their second operand (log 14). -/
def Instr.locationSlot : Instr → Option Operand
  | .neg d => some d
  | .add _ d => some d
  | .sub _ d => some d
  | .imul _ _ => none
  | .not d => some d
  | .and _ d => some d
  | .or _ d => some d
  | .xor _ d => some d
  | .sar _ d => some d
  | .shl _ d => some d
  | .shr _ d => some d
  | .setb _ d => some d
  | .lea _ _ => none
  | .mov _ d => some d
  | .push _ => none
  | .pop d => some d
  | .cmp _ _ => none
  | .jmp _ => none
  | .call _ => none
  | .ret => none
  | .j _ _ => none

/-- The operand pair of a term of format F_SRC_DEST or F_SRC_SRC (R66). -/
def Instr.operandPair : Instr → Option (Operand × Operand)
  | .neg _ => none
  | .add s d => some (s, d)
  | .sub s d => some (s, d)
  | .imul _ _ => none
  | .not _ => none
  | .and s d => some (s, d)
  | .or s d => some (s, d)
  | .xor s d => some (s, d)
  | .sar _ _ => none
  | .shl _ _ => none
  | .shr _ _ => none
  | .setb _ _ => none
  | .lea _ _ => none
  | .mov s d => some (s, d)
  | .push _ => none
  | .pop _ => none
  | .cmp s2 s1 => some (s2, s1)
  | .jmp _ => none
  | .call _ => none
  | .ret => none
  | .j _ _ => none

/-- The AMT operand of a shift (R67). -/
def Instr.amount : Instr → Option Operand
  | .neg _ => none
  | .add _ _ => none
  | .sub _ _ => none
  | .imul _ _ => none
  | .not _ => none
  | .and _ _ => none
  | .or _ _ => none
  | .xor _ _ => none
  | .sar a _ => some a
  | .shl a _ => some a
  | .shr a _ => some a
  | .setb _ _ => none
  | .lea _ _ => none
  | .mov _ _ => none
  | .push _ => none
  | .pop _ => none
  | .cmp _ _ => none
  | .jmp _ => none
  | .call _ => none
  | .ret => none
  | .j _ _ => none

/-- The operand of Push, Pop and Call, which also change ESP (R69). -/
def Instr.stackOperand : Instr → Option Operand
  | .neg _ => none
  | .add _ _ => none
  | .sub _ _ => none
  | .imul _ _ => none
  | .not _ => none
  | .and _ _ => none
  | .or _ _ => none
  | .xor _ _ => none
  | .sar _ _ => none
  | .shl _ _ => none
  | .shr _ _ => none
  | .setb _ _ => none
  | .lea _ _ => none
  | .mov _ _ => none
  | .push s => some s
  | .pop d => some d
  | .cmp _ _ => none
  | .jmp _ => none
  | .call s => some s
  | .ret => none
  | .j _ _ => none

/-- The labels a term uses. -/
def Instr.labels (i : Instr) : List Label := i.operands.flatMap Operand.labels

/-- Does the term break the check that reason `r` names? `resolved` says which labels are in
`dom(LblAddr)`; `policy` is `EspOperandPolicy`. -/
def Instr.breaks (policy : Config.EspOperandPolicy) (resolved : Label → Bool) (i : Instr) :
    IllFormedReason → Bool
  | .destNotLocation => i.locationSlot.any fun d => !d.isLocation
  | .twoIndirect => i.operandPair.any fun p => p.1.isInd && p.2.isInd
  | .indexEsp => i.operands.any Operand.indexIsEsp
  | .badAmount => i.amount.any fun a => !a.isAmount
  | .imulDestNotReg => match i with
    | .imul _ d => !d.isReg
    | _ => false
  | .leaSourceNotInd => match i with
    | .lea m _ => !m.isInd
    | _ => false
  | .leaDestNotReg => match i with
    | .lea _ d => !d.isReg
    | _ => false
  | .targetNotLabel => match i with
    | .j _ t => !t.isLbl
    | _ => false
  | .unresolvedLabel => i.labels.any fun l => !resolved l
  | .mentionsEsp => policy == .refuse && i.stackOperand.any Operand.mentionsEsp
  | .badNumber => false

/-- The checks that look at the term alone, in R70's order. -/
def IllFormedReason.ofShape : List IllFormedReason :=
  [.destNotLocation, .twoIndirect, .indexEsp, .badAmount, .imulDestNotReg, .leaSourceNotInd,
    .leaDestNotReg, .targetNotLabel]

/-- The first check on the term alone that fails. -/
def Instr.shapeReason (i : Instr) : Option IllFormedReason :=
  IllFormedReason.ofShape.find? (i.breaks .sequential fun _ => true)

/-- The first check of R70 that fails, in R70's order (DESIGN CHOICE, log 14: the spec does not say
which reason is reported when several hold). -/
def Instr.illFormedReason (policy : Config.EspOperandPolicy) (resolved : Label → Bool) (i : Instr) :
    Option IllFormedReason :=
  (IllFormedReason.ofShape ++ [IllFormedReason.unresolvedLabel, IllFormedReason.mentionsEsp]).find?
    (i.breaks policy resolved)

/-- A well-formed term (R62). -/
abbrev WellFormed (policy : Config.EspOperandPolicy) (resolved : Label → Bool) (i : Instr) : Prop :=
  i.illFormedReason policy resolved = none

end Sys2Proof
end

