-- ==== Sys2Proof/Machine/State.lean ====
section
/-! DEFINITION. The state of the machine (10_state.md), its faults (60_exceptions.md R141), and the state
a run starts from (R21). -/

namespace Sys2Proof.Machine

/-- The faults of 60_exceptions.md R141, exactly these four. Each is terminal and precise: the machine
stops where the source gives no behaviour, so each is safe. -/
inductive Fault where
  /-- Raised by every access to memory (an Ind operand, the stack slot of Push, Pop, Call, Ret) at an
  address that is not divisible by 4 or is outside the window (20_memory.md R33). Safe. -/
  | memFault (a : Word)
  /-- Raised by the fetch where no instruction stands at EIP and EIP is not `HALT_ADDR` (20_memory.md
  R43). Safe. -/
  | fetchFault (a : Word)
  /-- Raised by Sar, Shl, Shr for a count above 31 under `ShiftCountPolicy = Fault`
  (42_bit_manipulation.md R104). Safe. -/
  | shiftCountFault (c : Word)
  /-- Raised by any instruction whose term is not well-formed (30_encoding.md R70). Safe. -/
  | illFormed (reason : IllFormedReason)
  deriving DecidableEq, Repr

/-- Why there is no step, other than a fault. -/
inductive Refusal where
  /-- An arm of `exec` with no meaning yet; no arm uses it now. Safe. -/
  | notModelled (mnemonic : String)
  /-- Raised by `step` in a state whose status is Halted: no further step exists (10_state.md R20,
  60_exceptions.md R150). Safe. -/
  | runEnded
  deriving DecidableEq, Repr

/-- Run status (10_state.md R20): the spec's own bookkeeping, not hardware. -/
inductive Status where
  | running
  | halted
  | faulted (f : Fault)
  deriving DecidableEq, Repr

/-- The eight general registers (10_state.md R10). -/
structure RegFile where
  eax : Word
  ebx : Word
  ecx : Word
  edx : Word
  esi : Word
  edi : Word
  ebp : Word
  esp : Word
  deriving DecidableEq, Repr

/-- The three condition flags (10_state.md R15). -/
structure Flags where
  of : Bool
  sf : Bool
  zf : Bool
  deriving DecidableEq, Repr

/-- What stands at a code address: the term, and the address of the instruction that follows it in
program order (20_memory.md R40, R41: `Code` and `next`). -/
structure CodeCell where
  instr : Instr
  next : Word
  deriving DecidableEq, Repr

/-- Memory: the bytes that differ from what an unlisted address reads as, by rising address (log 2,
log 3). -/
abbrev Memory := List Host.Cell

/-- Keys strictly rising. -/
abbrev Rising {α : Type} (l : List (Nat × α)) : Prop := l.Pairwise fun p q => p.1 < q.1

/-- The canonical form of a memory: addresses strictly rising and below 2^32, no entry equal to what an
unlisted address reads as. -/
abbrev Memory.wf (m : Memory) : Prop :=
  Rising m ∧ ∀ c ∈ m, c.1 < 4294967296 ∧ c.2 ≠ Config.unlistedByte

/-- The machine's state: everything the spec gives it (INVENTORY.md, State). -/
structure State where
  /-- EAX to ESP (10_state.md R10). -/
  regs : RegFile
  /-- EIP (10_state.md R13). -/
  pc : Word
  /-- OF, SF, ZF (10_state.md R15). -/
  flags : Flags
  /-- `Mem` (10_state.md R18). -/
  mem : Memory
  /-- Run status (10_state.md R20). -/
  status : Status
  /-- `Code` and `next` by code address, in program order (20_memory.md R40, R41); a parameter of the program
  (log 11). -/
  code : List (Nat × CodeCell)
  /-- `LblAddr` by label (20_memory.md R42); a parameter of the program (log 11). -/
  labels : List (Nat × Word)
  /-- The spec's other parameters (00_scope.md section 4; log 6). No instruction writes them. -/
  params : Config.Params
  /-- The model's own: the number of draws taken so far (log 10). -/
  draws : Nat
  deriving DecidableEq, Repr

/-- DESIGN CHOICE (log 4), unsafe: the launch values of the seven registers the spec leaves arbitrary.
EBP's is the one the first run of 95_test_vectors.md P2 takes; the others follow its pattern. -/
def RegFile.reset : RegFile where
  eax := 0x01010101#32
  ebx := 0x02020202#32
  ecx := 0x03030303#32
  edx := 0x04040404#32
  esi := 0x05050505#32
  edi := 0x06060606#32
  ebp := 0x07070707#32
  esp := Config.Params.default.espInit

/-- The machine at launch under the spec's default parameters (10_state.md R21, 70_reset_and_hazards.md
R160), before the host has loaded a program (log 11). The word at `ESP_INIT` is `HALT_ADDR`, which is 0;
the other memory words, the flags and the registers but ESP are arbitrary in the spec and hold the values
of log 3, log 4 and log 5 here. -/
def State.reset : State where
  regs := RegFile.reset
  pc := Config.Params.default.entry
  flags := { of := true, sf := true, zf := true }
  mem := [(0xFFFFFFFC, 0#8), (0xFFFFFFFD, 0#8), (0xFFFFFFFE, 0#8), (0xFFFFFFFF, 0#8)]
  status := .running
  code := []
  labels := []
  params := Config.Params.default
  draws := 0

end Sys2Proof.Machine
end

