-- ==== Sys2Proof/Machine/Ops.lean ====
section
/-! DEFINITION. The named operations over registers, memory, code and status. Every register, flag,
memory word and EIP is read and written through these. -/

namespace Sys2Proof.Machine

/-! ## Sorted lists as partial maps -/

/-- The entry at a key. -/
def lookup {α : Type} (k : Nat) : List (Nat × α) → Option α
  | [] => none
  | (j, v) :: rest => if j = k then some v else lookup k rest

/-- Write the entry at a key, keeping the keys rising. -/
def insert {α : Type} (k : Nat) (v : α) : List (Nat × α) → List (Nat × α)
  | [] => [(k, v)]
  | (j, w) :: rest =>
    if k < j then (k, v) :: (j, w) :: rest
    else if j = k then (k, v) :: rest
    else (j, w) :: insert k v rest

/-- Remove the entry at a key. -/
def erase {α : Type} (k : Nat) (l : List (Nat × α)) : List (Nat × α) :=
  l.filter fun p => decide (p.1 ≠ k)

/-! ## Registers -/

def RegFile.get (f : RegFile) : Reg → Word
  | .eax => f.eax
  | .ebx => f.ebx
  | .ecx => f.ecx
  | .edx => f.edx
  | .esi => f.esi
  | .edi => f.edi
  | .ebp => f.ebp
  | .esp => f.esp

def RegFile.set (f : RegFile) (r : Reg) (v : Word) : RegFile :=
  match r with
  | .eax => { f with eax := v }
  | .ebx => { f with ebx := v }
  | .ecx => { f with ecx := v }
  | .edx => { f with edx := v }
  | .esi => { f with esi := v }
  | .edi => { f with edi := v }
  | .ebp => { f with ebp := v }
  | .esp => { f with esp := v }

/-- `x[r]`: all 32 bits (10_state.md R10). -/
def State.reg (s : State) (r : Reg) : Word := s.regs.get r

/-- `x[r] <- v`: all 32 bits (10_state.md R10). No register is hard-wired (R12). -/
def State.setReg (s : State) (r : Reg) (v : Word) : State := { s with regs := s.regs.set r v }

def State.setFlags (s : State) (f : Flags) : State := { s with flags := f }

def State.setPc (s : State) (a : Word) : State := { s with pc := a }

def State.setMem (s : State) (m : Memory) : State := { s with mem := m }

def State.setStatus (s : State) (t : Status) : State := { s with status := t }

/-- Count `n` draws as taken (log 10). -/
def State.addDraws (s : State) (n : Nat) : State := { s with draws := s.draws + n }

/-! ## Memory -/

/-- One byte of memory. -/
def readByte (m : Memory) (a : Nat) : Byte := (lookup a m).getD Config.unlistedByte

/-- Write one byte, keeping the canonical form. -/
def writeByte (m : Memory) (a : Nat) (b : Byte) : Memory :=
  if b = Config.unlistedByte then erase a m else insert a b m

/-- The word at `a`: byte `a + k` holds bits 8k+7 to 8k. PRESUMED (log 2): 20_memory.md R34 marks this
byte view as general knowledge; no program can observe it. -/
def readWord (m : Memory) (a : Word) : Word :=
  readByte m (a.toNat + 3) ++ readByte m (a.toNat + 2) ++ readByte m (a.toNat + 1)
    ++ readByte m a.toNat

/-- Write the word at `a` (log 2). -/
def writeWord (m : Memory) (a v : Word) : Memory :=
  writeByte
    (writeByte
      (writeByte (writeByte m a.toNat (v.extractLsb' 0 8)) (a.toNat + 1) (v.extractLsb' 8 8))
      (a.toNat + 2) (v.extractLsb' 16 8))
    (a.toNat + 3) (v.extractLsb' 24 8)

/-- A valid address: divisible by 4 (20_memory.md R31) and inside the window (R32). -/
def validAddr (p : Config.Params) (a : Word) : Bool :=
  decide (a.toNat % 4 = 0) && decide (p.memLo.toNat ≤ a.toNat) && decide (a.toNat ≤ p.memHi.toNat)

/-- `MemRead(a, 4)` (20_memory.md R33). -/
def memRead (s : State) (a : Word) : Except Fault Word :=
  if validAddr s.params a then .ok (readWord s.mem a) else .error (.memFault a)

/-- `MemWrite(a, 4, v)` (20_memory.md R33). -/
def memWrite (s : State) (a v : Word) : Except Fault State :=
  if validAddr s.params a then .ok (s.setMem (writeWord s.mem a v)) else .error (.memFault a)

/-! ## Code, labels, the program counter -/

/-- `Code(pc)` with `next(pc)`, where `pc` is in `dom(Code)` (20_memory.md R40, R43). -/
def State.fetched (s : State) : Option CodeCell := lookup s.pc.toNat s.code

/-- `next(pc)` (20_memory.md R41). DESIGN CHOICE (log 12): at an address with no instruction, where `step`
runs none, the reference layout's `pc + 4`. -/
def State.nextPc (s : State) : Word :=
  match s.fetched with
  | some cell => cell.next
  | none => s.pc + 4#32

/-- `LblAddr(l)`, where resolved (20_memory.md R42). -/
def State.labelAddr (s : State) (l : Label) : Option Word := lookup l.val s.labels

def State.resolved (s : State) (l : Label) : Bool := (s.labelAddr l).isSome

/-- The sequential advance `pc <- next(pc)` (10_state.md R14) on `t`, with `s` the state before the
instruction. -/
def advance (s t : State) : State := t.setPc s.nextPc

/-! ## Faults and the end of a run -/

/-- TAKING A FAULT (60_exceptions.md R141), the one operation for all four: the status records it and
nothing else changes, EIP included. The machine has no trap entry (nothing is saved, no mode changes,
control goes nowhere) and so no return from one (R140, R141, R149). -/
def takeFault (f : Fault) (s : State) : State := s.setStatus (.faulted f)

/-- The end of a run (60_exceptions.md R150): the status, and nothing else. -/
def haltRun (s : State) : State := s.setStatus .halted

/-- What a step makes of an instruction's outcome: a fault is taken, precisely, in the state before the
instruction (60_exceptions.md R141). -/
def settle (s : State) : Host.Outcome State Fault Refusal → Host.Outcome State Fault Refusal
  | .next t => .next t
  | .fault f => .next (takeFault f s)
  | .refused r => .refused r

end Sys2Proof.Machine
end

