-- ==== Sys2Proof/Machine/Flags.lean ====
section
/-! DEFINITION. Every flag computation: condition codes (30_encoding.md R60), `SetSZ` (10_state.md R16),
and each instruction's own OF (40_arithmetic.md to 44_control_flow.md). -/

namespace Sys2Proof.Machine

/-- `cond(cc)` (30_encoding.md R60). -/
def cond (f : Flags) : CondCode → Bool
  | .eq => f.zf
  | .zero => f.zf
  | .notEq => !f.zf
  | .notZero => !f.zf
  | .slt => f.sf != f.of
  | .sge => f.sf == f.of
  | .sle => (f.sf != f.of) || f.zf
  | .sgt => (f.sf == f.of) && !f.zf

/-- `SetSZ(r)` with a given OF (10_state.md R16). -/
def flagsOf (r : Word) (overflow : Bool) : Flags := { of := overflow, sf := r.msb, zf := r == 0#32 }

/-- `sext_64` (00_scope.md R6). -/
def sext64 (v : Word) : BitVec 64 := v.signExtend 64

/-- `trunc_32` (00_scope.md R6). -/
def trunc32 (v : BitVec 64) : Word := v.setWidth 32

/-- Neg: OF exactly when DEST is MIN_INT (40_arithmetic.md R80). -/
def flagsNeg (d : Word) : Flags := flagsOf (0#32 - d) (d == minInt)

/-- The 64-bit sum, truncated (40_arithmetic.md R81). -/
def sum32 (v d : Word) : Word := trunc32 (sext64 d + sext64 v)

/-- Add: OF when D64 and S64 have the same sign and R32 has not (40_arithmetic.md R81). -/
def flagsAdd (v d : Word) : Flags :=
  flagsOf (sum32 v d)
    ((sext64 v).msb == (sext64 d).msb && (sum32 v d).msb != (sext64 v).msb)

/-- The 64-bit difference D64 + -S64, truncated (40_arithmetic.md R82). -/
def diff32 (v d : Word) : Word := trunc32 (sext64 d + -sext64 v)

/-- Sub and Cmp: OF by clause c1, or by clause c2 under `SubMinIntOf = Source` (40_arithmetic.md R82,
90_conflicts.md C4). -/
def flagsSub (p : Config.Params) (v d : Word) : Flags :=
  flagsOf (diff32 v d)
    (((sext64 d).msb == (-sext64 v).msb && (diff32 v d).msb != (-sext64 v).msb)
      || (v == minInt && p.subMinIntOf == .source))

/-- And, Or, Xor: OF is 0 (41_logic.md R91 to R93). -/
def flagsLogic (r : Word) : Flags := flagsOf r false

/-- The exact 64-bit product (40_arithmetic.md R83). -/
def product64 (v d : Word) : BitVec 64 := sext64 d * sext64 v

/-- Imul: OF exactly when the product is not a sign-extended word; SF and ZF are undefined and hold the
next two free bits (40_arithmetic.md R83; log 8). -/
def flagsImul (v d : Word) (draws : Nat) : Flags where
  of := product64 v d != sext64 (trunc32 (product64 v d))
  sf := Config.freeBit draws
  zf := Config.freeBit (draws + 1)

/-- Flags after a shift by `n` with result `r`, the OF after a count of 1 given: none written for count 0,
OF kept above 1 (42_bit_manipulation.md R100 to R102). -/
def flagsShift (old : Flags) (n : Nat) (r : Word) (overflow1 : Bool) : Flags :=
  if n = 0 then old
  else flagsOf r (if n = 1 then overflow1 else old.of)

/-- Is the OF of Shl left to a draw: count 1, equal top bits, policy `Either` (42_bit_manipulation.md
R101). -/
def shlDraws (p : Config.Params) (n : Nat) (d : Word) : Bool :=
  n == 1 && d.getLsbD 31 == d.getLsbD 30 && p.shl1Of == .either

/-- OF after Shl by 1 (42_bit_manipulation.md R101): 1 where the top two bits differ, else by
`Shl1OfPolicy`; `Either` is the old OF or 0, as the free bit says (log 9). -/
def shl1Overflow (p : Config.Params) (old : Bool) (d : Word) (draws : Nat) : Bool :=
  if d.getLsbD 31 != d.getLsbD 30 then true
  else match p.shl1Of with
    | .unchanged => old
    | .cleared => false
    | .either => old && Config.freeBit draws

end Sys2Proof.Machine
end

