-- ==== Sys2Proof/Machine/Operands.lean ====
section
/-! DEFINITION. Operand forms: effective address, value, location (30_encoding.md R54 to R59), the check
for well-formedness (R62, R70), the shift count (42_bit_manipulation.md R104), and the two shapes of
instruction that read and write one location. -/

namespace Sys2Proof.Machine

/-- The displacement of an effective address; absent it is 0 (30_encoding.md R57). A label is its address;
an unresolved one makes the term ill-formed (R70 reason 9). -/
def dispValue (s : State) : Option Disp → Except Fault Word
  | none => .ok 0#32
  | some (.word w) => .ok w
  | some (.label l) =>
    match s.labelAddr l with
    | some a => .ok a
    | none => .error (.illFormed .unresolvedLabel)

/-- The base of an effective address; absent it is 0 (30_encoding.md R57). -/
def baseValue (s : State) : Option Reg → Word
  | none => 0#32
  | some r => s.reg r

/-- The scaled index of an effective address; absent it is 0 (30_encoding.md R57). -/
def indexValue (s : State) : Option (Reg × Word) → Word
  | none => 0#32
  | some (r, scale) => s.reg r * scale

/-- `addr(m) = base + index * scale + disp`, 32-bit wrapping (30_encoding.md R57). -/
def effAddr (s : State) (m : Ind) : Except Fault Word := do
  let d ← dispValue s m.disp
  .ok (baseValue s m.base + indexValue s m.index + d)

/-- `val(o)` (30_encoding.md R54, R55, R56, R58). -/
def value (s : State) : Operand → Except Fault Word
  | .imm i => .ok i
  | .lbl l =>
    match s.labelAddr l with
    | some a => .ok a
    | none => .error (.illFormed .unresolvedLabel)
  | .reg r => .ok (s.reg r)
  | .ind m => do
    let a ← effAddr s m
    memRead s a

/-- `store(o, v)` (30_encoding.md R59). An Imm or Lbl is no location. -/
def store (s : State) (o : Operand) (v : Word) : Except Fault State :=
  match o with
  | .reg r => .ok (s.setReg r v)
  | .ind m => do
    let a ← effAddr s m
    memWrite s a v
  | .imm _ => .error (.illFormed .destNotLocation)
  | .lbl _ => .error (.illFormed .destNotLocation)

/-- Can `store` write the operand: a register, or an Ind whose address is valid (30_encoding.md R59,
20_memory.md R33). -/
def writable (s : State) : Operand → Bool
  | .reg _ => true
  | .ind m =>
    match effAddr s m with
    | .ok a => validAddr s.params a
    | .error _ => false
  | .imm _ => false
  | .lbl _ => false

/-- Which reason, if any, makes the term ill-formed in this state (30_encoding.md R62, R70). -/
def illFormed (s : State) (i : Instr) : Option IllFormedReason :=
  i.illFormedReason s.params.espOperand s.resolved

/-- A meaning's frame: an ill-formed term evaluates nothing (60_exceptions.md R142), a fault writes
nothing (R141). -/
def runTerm (s : State) (i : Instr) (body : Except Fault State) : Host.Outcome State Fault Refusal :=
  match illFormed s i with
  | some r => .fault (.illFormed r)
  | none =>
    match body with
    | .ok t => .next t
    | .error f => .fault f

/-- The effective shift count (42_bit_manipulation.md R104). -/
def shiftCount (s : State) (c : Word) : Except Fault Nat :=
  match s.params.shiftCount with
  | .fault => if 31 < c.toNat then .error (.shiftCountFault c) else .ok c.toNat
  | .mask5 => .ok (c.toNat % 32)

/-- The shape of Add, Sub, And, Or, Xor: read SRC, then DEST; write the result, the flags, EIP
(00_scope.md R7). -/
def combine (s : State) (src dst : Operand) (result : Word → Word → Word)
    (flags : Word → Word → Flags) : Except Fault State := do
  let v ← value s src
  let d ← value s dst
  let t ← store s dst (result v d)
  .ok (advance s (t.setFlags (flags v d)))

/-- The shape of Sar and Shr: the count, then DEST; DEST is read and written back for count 0 too
(42_bit_manipulation.md R100; 92_eei_decisions.md D25). -/
def shift (s : State) (amt dst : Operand) (result : Word → Nat → Word)
    (overflow1 : Word → Bool) : Except Fault State := do
  let c ← value s amt
  let n ← shiftCount s c
  let d ← value s dst
  let t ← store s dst (result d n)
  .ok (advance s (t.setFlags (flagsShift s.flags n (result d n) (overflow1 d))))

/-- The low byte of a word replaced by a bit (42_bit_manipulation.md R103). -/
def setLowByte (d : Word) (b : Bool) : Word :=
  d.extractLsb' 8 24 ++ (if b then 0x01#8 else 0x00#8)

/-- The new stack slot of Push and Call, `ESP - 4` (43_data_movement.md R112). -/
def pushSlot (s : State) : Word := s.reg .esp - 4#32

/-- ESP moved down to the new slot. -/
def espDown (s : State) : State := s.setReg .esp (pushSlot s)

/-- ESP moved up by one word (43_data_movement.md R113). -/
def espUp (s : State) : State := s.setReg .esp (s.reg .esp + 4#32)

/-- The state in which Push evaluates its operand, and Call looks for its operand's fault: with the old
ESP, but under `Sequential` with the new (43_data_movement.md R112, 44_control_flow.md R122). The two differ
only for an operand that mentions ESP. -/
def pushView (s : State) : State :=
  match s.params.espOperand with
  | .refuse => s
  | .ia32Order => s
  | .sequential => espDown s

/-- The state in which Pop evaluates and writes DEST: with the old ESP, but under `IA32Order` with the
incremented one (43_data_movement.md R113). -/
def popView (s : State) : State :=
  match s.params.espOperand with
  | .refuse => s
  | .ia32Order => espUp s
  | .sequential => s

end Sys2Proof.Machine
end

