-- ==== Sys2Proof/Machine/Arithmetic.lean ====
section
/-! DEFINITION. Neg, Add, Sub, Imul (40_arithmetic.md). -/

namespace Sys2Proof.Machine

/-- `Neg DEST` (40_arithmetic.md R80). -/
def execNeg (dst : Operand) (s : State) : Host.Outcome State Fault Refusal :=
  runTerm s (.neg dst) do
    let d ← value s dst
    let t ← store s dst (0#32 - d)
    .ok (advance s (t.setFlags (flagsNeg d)))

/-- `Add SRC DEST` (40_arithmetic.md R81). -/
def execAdd (src dst : Operand) (s : State) : Host.Outcome State Fault Refusal :=
  runTerm s (.add src dst) (combine s src dst sum32 flagsAdd)

/-- `Sub SRC DEST`: DEST minus SRC (40_arithmetic.md R82). -/
def execSub (src dst : Operand) (s : State) : Host.Outcome State Fault Refusal :=
  runTerm s (.sub src dst) (combine s src dst diff32 (flagsSub s.params))

/-- `Imul SRC Reg` (40_arithmetic.md R83): two draws, SF and ZF. -/
def execImul (src dst : Operand) (s : State) : Host.Outcome State Fault Refusal :=
  runTerm s (.imul src dst) do
    let v ← value s src
    let d ← value s dst
    let t ← store s dst (trunc32 (product64 v d))
    .ok (advance s ((t.setFlags (flagsImul v d s.draws)).addDraws 2))

end Sys2Proof.Machine
end

