-- ==== Sys2Proof/Machine/BitManipulation.lean ====
section
/-! DEFINITION. Sar, Shl, Shr, Setb (42_bit_manipulation.md). -/

namespace Sys2Proof.Machine

/-- `Sar AMT DEST`: OF is 0 after a count of 1 (42_bit_manipulation.md R100). -/
def execSar (amt dst : Operand) (s : State) : Host.Outcome State Fault Refusal :=
  runTerm s (.sar amt dst) (shift s amt dst (fun d n => d.sshiftRight n) fun _ => false)

/-- `Shl AMT DEST` (42_bit_manipulation.md R101): one draw where the spec leaves OF open. -/
def execShl (amt dst : Operand) (s : State) : Host.Outcome State Fault Refusal :=
  runTerm s (.shl amt dst) do
    let c ← value s amt
    let n ← shiftCount s c
    let d ← value s dst
    let t ← store s dst (d <<< n)
    let flags := flagsShift s.flags n (d <<< n) (shl1Overflow s.params s.flags.of d s.draws)
    .ok (advance s ((t.setFlags flags).addDraws (if shlDraws s.params n d then 1 else 0)))

/-- `Shr AMT DEST`: OF is the old bit 31 after a count of 1 (42_bit_manipulation.md R102,
90_conflicts.md C7). -/
def execShr (amt dst : Operand) (s : State) : Host.Outcome State Fault Refusal :=
  runTerm s (.shr amt dst) (shift s amt dst (fun d n => d >>> n) fun d => d.getLsbD 31)

/-- `Setb CC DEST` (42_bit_manipulation.md R103). -/
def execSetb (cc : CondCode) (dst : Operand) (s : State) : Host.Outcome State Fault Refusal :=
  runTerm s (.setb cc dst) do
    let d ← value s dst
    let t ← store s dst (setLowByte d (cond s.flags cc))
    .ok (advance s t)

end Sys2Proof.Machine
end

