-- ==== Sys2Proof/Machine/ControlFlow.lean ====
section
/-! DEFINITION. Cmp, Jmp, Call, Ret, J (44_control_flow.md). A transfer never checks its target (R125). -/

namespace Sys2Proof.Machine

/-- `Cmp SRC2 SRC1`: the flags of SRC1 - SRC2, as Sub sets them, and nothing else (44_control_flow.md
R120, 90_conflicts.md C2). -/
def execCmp (src2 src1 : Operand) (s : State) : Host.Outcome State Fault Refusal :=
  runTerm s (.cmp src2 src1) do
    let v ← value s src2
    let d ← value s src1
    .ok (advance s (s.setFlags (flagsSub s.params v d)))

/-- `Jmp SRC` (44_control_flow.md R121). -/
def execJmp (src : Operand) (s : State) : Host.Outcome State Fault Refusal :=
  runTerm s (.jmp src) do
    let t ← value s src
    .ok (s.setPc t)

/-- The return address on the new stack slot, and ESP on that slot (44_control_flow.md R122). -/
def pushReturn (s : State) : Except Fault State := do
  let t ← memWrite s (pushSlot s) s.nextPc
  .ok (t.setReg .esp (pushSlot s))

/-- Where Call goes, `t` being the state after the push and `early` the operand's value before it: under
`Sequential` the operand is evaluated in `t`, and may read the return address just pushed
(44_control_flow.md R122; log 15). -/
def callTarget (src : Operand) (t : State) (early : Word) : Except Fault Word :=
  match t.params.espOperand with
  | .refuse => .ok early
  | .ia32Order => .ok early
  | .sequential => value t src

/-- The effect of Call (44_control_flow.md R122). Under every policy the operand's fault comes before the
stack slot's (60_exceptions.md R142; log 15). -/
def callBody (src : Operand) (s : State) : Except Fault State := do
  let early ← value (pushView s) src
  let t ← pushReturn s
  let target ← callTarget src t early
  .ok (t.setPc target)

/-- `Call SRC` (44_control_flow.md R122). -/
def execCall (src : Operand) (s : State) : Host.Outcome State Fault Refusal :=
  runTerm s (.call src) (callBody src s)

/-- `Ret` (44_control_flow.md R123). -/
def execRet (s : State) : Host.Outcome State Fault Refusal :=
  runTerm s .ret do
    let t ← memRead s (s.reg .esp)
    .ok ((espUp s).setPc t)

/-- J's target address (44_control_flow.md R124); only a label is one (30_encoding.md R68). -/
def jumpTarget (s : State) : Operand → Except Fault Word
  | .lbl l => value s (.lbl l)
  | .imm _ => .error (.illFormed .targetNotLabel)
  | .reg _ => .error (.illFormed .targetNotLabel)
  | .ind _ => .error (.illFormed .targetNotLabel)

/-- `J CC Lbl` (44_control_flow.md R124). -/
def execJ (cc : CondCode) (target : Operand) (s : State) : Host.Outcome State Fault Refusal :=
  runTerm s (.j cc target) do
    let a ← jumpTarget s target
    .ok (s.setPc (if cond s.flags cc then a else s.nextPc))

end Sys2Proof.Machine
end

