-- ==== Sys2Proof/Machine/DataMovement.lean ====
section
/-! DEFINITION. Lea, Mov, Push, Pop (43_data_movement.md). None writes a flag. -/

namespace Sys2Proof.Machine

/-- What Lea moves: the effective address itself, with no memory access (43_data_movement.md R110). -/
def leaAddr (s : State) : Operand → Except Fault Word
  | .ind m => effAddr s m
  | .imm _ => .error (.illFormed .leaSourceNotInd)
  | .lbl _ => .error (.illFormed .leaSourceNotInd)
  | .reg _ => .error (.illFormed .leaSourceNotInd)

/-- `Lea Ind DEST` (43_data_movement.md R110). -/
def execLea (src dst : Operand) (s : State) : Host.Outcome State Fault Refusal :=
  runTerm s (.lea src dst) do
    let a ← leaAddr s src
    let t ← store s dst a
    .ok (advance s t)

/-- `Mov SRC DEST`: DEST is not read (43_data_movement.md R111). -/
def execMov (src dst : Operand) (s : State) : Host.Outcome State Fault Refusal :=
  runTerm s (.mov src dst) do
    let v ← value s src
    let t ← store s dst v
    .ok (advance s t)

/-- `Push SRC` under every `EspOperandPolicy` (43_data_movement.md R112). -/
def execPush (src : Operand) (s : State) : Host.Outcome State Fault Refusal :=
  runTerm s (.push src) do
    let v ← value (pushView s) src
    let t ← memWrite s (pushSlot s) v
    .ok (advance s (t.setReg .esp (pushSlot s)))

/-- Pop's increment of ESP after the write of DEST: done already in `popView` under `IA32Order`, where
DEST may be ESP itself (43_data_movement.md R113). -/
def popFinish (s t : State) : State :=
  match s.params.espOperand with
  | .refuse => espUp t
  | .ia32Order => t
  | .sequential => espUp t

/-- `Pop DEST` under every `EspOperandPolicy` (43_data_movement.md R113). -/
def execPop (dst : Operand) (s : State) : Host.Outcome State Fault Refusal :=
  runTerm s (.pop dst) do
    let v ← memRead s (s.reg .esp)
    let t ← store (popView s) dst v
    .ok (advance s (popFinish s t))

end Sys2Proof.Machine
end

