-- ==== Sys2Proof/Machine/Logic.lean ====
section
/-! DEFINITION. Not, And, Or, Xor (41_logic.md). -/

namespace Sys2Proof.Machine

/-- `Not DEST`: no flag written (41_logic.md R90). -/
def execNot (dst : Operand) (s : State) : Host.Outcome State Fault Refusal :=
  runTerm s (.not dst) do
    let d ← value s dst
    let t ← store s dst (~~~d)
    .ok (advance s t)

/-- `And SRC DEST` (41_logic.md R91). -/
def execAnd (src dst : Operand) (s : State) : Host.Outcome State Fault Refusal :=
  runTerm s (.and src dst) (combine s src dst (fun v d => d &&& v) fun v d => flagsLogic (d &&& v))

/-- `Or SRC DEST` (41_logic.md R92). -/
def execOr (src dst : Operand) (s : State) : Host.Outcome State Fault Refusal :=
  runTerm s (.or src dst) (combine s src dst (fun v d => d ||| v) fun v d => flagsLogic (d ||| v))

/-- `Xor SRC DEST` (41_logic.md R93). -/
def execXor (src dst : Operand) (s : State) : Host.Outcome State Fault Refusal :=
  runTerm s (.xor src dst) (combine s src dst (fun v d => d ^^^ v) fun v d => flagsLogic (d ^^^ v))

end Sys2Proof.Machine
end

