-- ==== Sys2Proof/Machine/Dispatch.lean ====
section
/-! DEFINITION. One arm per instruction, in the order of spec/opcode_table.json. -/

namespace Sys2Proof.Machine

def exec (i : Instr) (s : State) : Host.Outcome State Fault Refusal :=
  match i with
  | .neg dst => Sys2Proof.Machine.execNeg dst s
  | .add src dst => Sys2Proof.Machine.execAdd src dst s
  | .sub src dst => Sys2Proof.Machine.execSub src dst s
  | .imul src dst => Sys2Proof.Machine.execImul src dst s
  | .not dst => Sys2Proof.Machine.execNot dst s
  | .and src dst => Sys2Proof.Machine.execAnd src dst s
  | .or src dst => Sys2Proof.Machine.execOr src dst s
  | .xor src dst => Sys2Proof.Machine.execXor src dst s
  | .sar amt dst => Sys2Proof.Machine.execSar amt dst s
  | .shl amt dst => Sys2Proof.Machine.execShl amt dst s
  | .shr amt dst => Sys2Proof.Machine.execShr amt dst s
  | .setb cc dst => Sys2Proof.Machine.execSetb cc dst s
  | .lea src dst => Sys2Proof.Machine.execLea src dst s
  | .mov src dst => Sys2Proof.Machine.execMov src dst s
  | .push src => Sys2Proof.Machine.execPush src s
  | .pop dst => Sys2Proof.Machine.execPop dst s
  | .cmp src2 src1 => Sys2Proof.Machine.execCmp src2 src1 s
  | .jmp src => Sys2Proof.Machine.execJmp src s
  | .call src => Sys2Proof.Machine.execCall src s
  | .ret => Sys2Proof.Machine.execRet s
  | .j cc target => Sys2Proof.Machine.execJ cc target s

end Sys2Proof.Machine
end

