-- ==== Sys2Proof/Decode.lean ====
section
/-! DEFINITION. The decoder and the encoder of the model's serialisation of instruction terms.

The spec has NO binary encoding (30_encoding.md R50, R71; 91_not_in_source.md N2): "a decoder is the
function from the toolchain's representation to these terms, and it is total". The representation read
here is the model's own, DESIGN CHOICE (log 1). It uses the spec-own numbers of R52: the first byte is
the tag 1..21, a condition code is written as its number 1..8 less 1. The other fields, in the order of
the term's operands:
* a word or a label is four bytes, least significant first;
* a register is one byte, its place 0..7 in the source's table (R10; not an IA-32 number);
* an operand slot that admits several kinds starts with a byte that numbers the kinds in the order R62's
  table lists them: value 0 Imm, 1 Lbl, 2 Reg, 3 Ind; location 0 Reg, 1 Ind; AMT 0 Imm, 1 Reg ECX. A slot
  that admits one kind (Imul's Reg, Lea's Ind and Reg, J's Lbl) has none;
* an Ind is one byte with bit 0 base present, bit 1 index present, bit 2 displacement present and bit 3
  displacement is a label, and then base, index, scale, displacement, as far as present.
So nothing here can be proved about IA-32 machine code. -/

namespace Sys2Proof

/-- Why bytes spell no instruction. -/
inductive DecodeError where
  /-- The bytes end inside a term. -/
  | truncated
  /-- A kind byte names no kind the slot admits. -/
  | badKind
  /-- A register byte above 7. -/
  | badRegister
  /-- A presence byte of an Ind with an unused bit set, or "displacement is a label" with none present. -/
  | badIndirect
  /-- The fields are read, but the term is not well-formed (R70), or a tag or condition-code number is
  out of range (R70 reason 11). -/
  | illFormed (r : IllFormedReason)
  deriving DecidableEq, Repr

/-- A reader takes bytes off the front of a list. -/
abbrev Reader (α : Type) := List Byte → Except DecodeError (α × List Byte)

def takeByte : Reader Byte
  | [] => .error .truncated
  | b :: rest => .ok (b, rest)

/-- Four bytes, least significant first (log 1). -/
def wordOfBytes (b0 b1 b2 b3 : Byte) : Word := b3 ++ b2 ++ b1 ++ b0

def bytesOfWord (w : Word) : List Byte :=
  [w.extractLsb' 0 8, w.extractLsb' 8 8, w.extractLsb' 16 8, w.extractLsb' 24 8]

def takeWord : Reader Word
  | b0 :: b1 :: b2 :: b3 :: rest => .ok (wordOfBytes b0 b1 b2 b3, rest)
  | _ => .error .truncated

def takeLabel : Reader Label := fun bs => do
  let (w, rest) ← takeWord bs
  .ok (w.toFin, rest)

def bytesOfLabel (l : Label) : List Byte := bytesOfWord (BitVec.ofFin l)

/-- A register's place in the source's table (10_state.md R10); the model's own number (log 1). -/
def Reg.place : Reg → Byte
  | .eax => 0#8
  | .ebx => 1#8
  | .ecx => 2#8
  | .edx => 3#8
  | .esi => 4#8
  | .edi => 5#8
  | .ebp => 6#8
  | .esp => 7#8

def Reg.ofPlace (b : Byte) : Option Reg :=
  match b.toNat with
  | 0 => some .eax
  | 1 => some .ebx
  | 2 => some .ecx
  | 3 => some .edx
  | 4 => some .esi
  | 5 => some .edi
  | 6 => some .ebp
  | 7 => some .esp
  | _ => none

def takeReg : Reader Reg := fun bs => do
  let (b, rest) ← takeByte bs
  match Reg.ofPlace b with
  | some r => .ok (r, rest)
  | none => .error .badRegister

/-- The source's number 1..8 of a condition code (R60, R52). -/
def CondCode.number : CondCode → Nat
  | .eq => 1
  | .zero => 2
  | .notEq => 3
  | .notZero => 4
  | .slt => 5
  | .sge => 6
  | .sle => 7
  | .sgt => 8

def CondCode.ofNumber : Nat → Option CondCode
  | 1 => some .eq
  | 2 => some .zero
  | 3 => some .notEq
  | 4 => some .notZero
  | 5 => some .slt
  | 6 => some .sge
  | 7 => some .sle
  | 8 => some .sgt
  | _ => none

/-- A condition code is written as its number less 1. -/
def takeCond : Reader CondCode := fun bs => do
  let (b, rest) ← takeByte bs
  match CondCode.ofNumber (b.toNat + 1) with
  | some cc => .ok (cc, rest)
  | none => .error (.illFormed .badNumber)

def byteOfCond (cc : CondCode) : Byte := BitVec.ofNat 8 (cc.number - 1)

def takeOptional {α : Type} (present : Bool) (read : Reader α) : Reader (Option α) := fun bs =>
  if present then do
    let (x, rest) ← read bs
    .ok (some x, rest)
  else .ok (none, bs)

def takeIndex : Reader (Reg × Word) := fun bs => do
  let (r, rest) ← takeReg bs
  let (scale, rest) ← takeWord rest
  .ok ((r, scale), rest)

def takeDisp (isLabel : Bool) : Reader Disp := fun bs =>
  if isLabel then do
    let (l, rest) ← takeLabel bs
    .ok (.label l, rest)
  else do
    let (w, rest) ← takeWord bs
    .ok (.word w, rest)

def takeInd : Reader Ind := fun bs => do
  let (p, rest) ← takeByte bs
  if 16 ≤ p.toNat || (p.getLsbD 3 && !p.getLsbD 2) then .error .badIndirect
  else do
    let (base, rest) ← takeOptional (p.getLsbD 0) takeReg rest
    let (index, rest) ← takeOptional (p.getLsbD 1) takeIndex rest
    let (disp, rest) ← takeOptional (p.getLsbD 2) (takeDisp (p.getLsbD 3)) rest
    .ok ({ base, index, disp }, rest)

def Disp.isLabel : Disp → Bool
  | .label _ => true
  | .word _ => false

/-- The presence byte of an Ind. -/
def Ind.presence (m : Ind) : Byte :=
  0#4 ++ BitVec.ofBool (m.disp.any Disp.isLabel) ++ BitVec.ofBool m.disp.isSome
    ++ BitVec.ofBool m.index.isSome ++ BitVec.ofBool m.base.isSome

def bytesOfDisp : Disp → List Byte
  | .word w => bytesOfWord w
  | .label l => bytesOfLabel l

def bytesOfInd (m : Ind) : List Byte :=
  m.presence ::
    ((m.base.map fun r => [r.place]).getD []
      ++ (m.index.map fun p => p.1.place :: bytesOfWord p.2).getD []
      ++ (m.disp.map bytesOfDisp).getD [])

/-- A slot that admits any value: Imm, Lbl, Reg, Ind (R62). -/
def takeValue : Reader Operand := fun bs => do
  let (k, rest) ← takeByte bs
  match k.toNat with
  | 0 => do let (w, rest) ← takeWord rest; .ok (.imm w, rest)
  | 1 => do let (l, rest) ← takeLabel rest; .ok (.lbl l, rest)
  | 2 => do let (r, rest) ← takeReg rest; .ok (.reg r, rest)
  | 3 => do let (m, rest) ← takeInd rest; .ok (.ind m, rest)
  | _ => .error .badKind

def bytesOfValue : Operand → Option (List Byte)
  | .imm w => some (0#8 :: bytesOfWord w)
  | .lbl l => some (1#8 :: bytesOfLabel l)
  | .reg r => some [2#8, r.place]
  | .ind m => some (3#8 :: bytesOfInd m)

/-- A slot that admits a location: Reg, Ind (R62). -/
def takeLocation : Reader Operand := fun bs => do
  let (k, rest) ← takeByte bs
  match k.toNat with
  | 0 => do let (r, rest) ← takeReg rest; .ok (.reg r, rest)
  | 1 => do let (m, rest) ← takeInd rest; .ok (.ind m, rest)
  | _ => .error .badKind

def bytesOfLocation : Operand → Option (List Byte)
  | .reg r => some [0#8, r.place]
  | .ind m => some (1#8 :: bytesOfInd m)
  | .imm _ => none
  | .lbl _ => none

/-- The AMT slot: Imm, or Reg ECX (R67). -/
def takeAmount : Reader Operand := fun bs => do
  let (k, rest) ← takeByte bs
  match k.toNat with
  | 0 => do let (w, rest) ← takeWord rest; .ok (.imm w, rest)
  | 1 => .ok (.reg .ecx, rest)
  | _ => .error .badKind

def bytesOfAmount : Operand → Option (List Byte)
  | .imm w => some (0#8 :: bytesOfWord w)
  | .reg r => if r = .ecx then some [1#8] else none
  | .ind _ => none
  | .lbl _ => none

/-- Imul's and Lea's second slot: Reg only (R62). -/
def takeRegOperand : Reader Operand := fun bs => do
  let (r, rest) ← takeReg bs
  .ok (.reg r, rest)

def bytesOfRegOperand : Operand → Option (List Byte)
  | .reg r => some [r.place]
  | .ind _ => none
  | .imm _ => none
  | .lbl _ => none

/-- Lea's first slot: Ind only (R62). -/
def takeIndOperand : Reader Operand := fun bs => do
  let (m, rest) ← takeInd bs
  .ok (.ind m, rest)

def bytesOfIndOperand : Operand → Option (List Byte)
  | .ind m => some (bytesOfInd m)
  | .reg _ => none
  | .imm _ => none
  | .lbl _ => none

/-- J's target slot: Lbl only (R62). -/
def takeLblOperand : Reader Operand := fun bs => do
  let (l, rest) ← takeLabel bs
  .ok (.lbl l, rest)

def bytesOfLblOperand : Operand → Option (List Byte)
  | .lbl l => some (bytesOfLabel l)
  | .reg _ => none
  | .ind _ => none
  | .imm _ => none

/-- Read one slot and apply a one-operand constructor. -/
def take1 {α : Type} (f : α → Instr) (a : Reader α) : Reader Instr := fun bs => do
  let (x, rest) ← a bs
  .ok (f x, rest)

/-- Read two slots and apply a two-operand constructor. -/
def take2 {α β : Type} (f : α → β → Instr) (a : Reader α) (b : Reader β) : Reader Instr :=
    fun bs => do
  let (x, rest) ← a bs
  let (y, rest) ← b rest
  .ok (f x y, rest)

/-- The term after its tag: the slots of the tag's format (R51, R62). Tags outside 1..21 spell no
instruction (R52; R70 reason 11). -/
def takeFields : Nat → Reader Instr
  | 1 => take1 .neg takeLocation
  | 2 => take2 .add takeValue takeLocation
  | 3 => take2 .sub takeValue takeLocation
  | 4 => take2 .imul takeValue takeRegOperand
  | 5 => take1 .not takeLocation
  | 6 => take2 .and takeValue takeLocation
  | 7 => take2 .or takeValue takeLocation
  | 8 => take2 .xor takeValue takeLocation
  | 9 => take2 .sar takeAmount takeLocation
  | 10 => take2 .shl takeAmount takeLocation
  | 11 => take2 .shr takeAmount takeLocation
  | 12 => take2 .setb takeCond takeLocation
  | 13 => take2 .lea takeIndOperand takeRegOperand
  | 14 => take2 .mov takeValue takeLocation
  | 15 => take1 .push takeValue
  | 16 => take1 .pop takeLocation
  | 17 => take2 .cmp takeValue takeValue
  | 18 => take1 .jmp takeValue
  | 19 => take1 .call takeValue
  | 20 => fun bs => .ok (.ret, bs)
  | 21 => take2 .j takeCond takeLblOperand
  | _ => fun _ => .error (.illFormed .badNumber)

/-- Refuse a term that breaks a check on the term alone (R70). -/
def checkShape (i : Instr) (rest : List Byte) : Except DecodeError (Instr × List Byte) :=
  match i.shapeReason with
  | some r => .error (.illFormed r)
  | none => .ok (i, rest)

/-- The decoder: total on any bytes; the instruction with the bytes after it, or why there is none. -/
def decode : Reader Instr := fun bs => do
  let (tag, rest) ← takeByte bs
  let (i, rest) ← takeFields tag.toNat rest
  checkShape i rest

/-- The tag of a term: the source's own number (R51, R52). -/
def Instr.tag : Instr → Nat
  | .neg _ => 1
  | .add _ _ => 2
  | .sub _ _ => 3
  | .imul _ _ => 4
  | .not _ => 5
  | .and _ _ => 6
  | .or _ _ => 7
  | .xor _ _ => 8
  | .sar _ _ => 9
  | .shl _ _ => 10
  | .shr _ _ => 11
  | .setb _ _ => 12
  | .lea _ _ => 13
  | .mov _ _ => 14
  | .push _ => 15
  | .pop _ => 16
  | .cmp _ _ => 17
  | .jmp _ => 18
  | .call _ => 19
  | .ret => 20
  | .j _ _ => 21

/-- The bytes of two slots, where both operands are of kinds the slots admit. -/
def join2 (a b : Option (List Byte)) : Option (List Byte) :=
  match a, b with
  | some x, some y => some (x ++ y)
  | _, _ => none

/-- The bytes after the tag; none where an operand is of a kind its slot does not admit. -/
def bytesOfFields : Instr → Option (List Byte)
  | .neg d => bytesOfLocation d
  | .add s d => join2 (bytesOfValue s) (bytesOfLocation d)
  | .sub s d => join2 (bytesOfValue s) (bytesOfLocation d)
  | .imul s d => join2 (bytesOfValue s) (bytesOfRegOperand d)
  | .not d => bytesOfLocation d
  | .and s d => join2 (bytesOfValue s) (bytesOfLocation d)
  | .or s d => join2 (bytesOfValue s) (bytesOfLocation d)
  | .xor s d => join2 (bytesOfValue s) (bytesOfLocation d)
  | .sar a d => join2 (bytesOfAmount a) (bytesOfLocation d)
  | .shl a d => join2 (bytesOfAmount a) (bytesOfLocation d)
  | .shr a d => join2 (bytesOfAmount a) (bytesOfLocation d)
  | .setb cc d => join2 (some [byteOfCond cc]) (bytesOfLocation d)
  | .lea m d => join2 (bytesOfIndOperand m) (bytesOfRegOperand d)
  | .mov s d => join2 (bytesOfValue s) (bytesOfLocation d)
  | .push s => bytesOfValue s
  | .pop d => bytesOfLocation d
  | .cmp s2 s1 => join2 (bytesOfValue s2) (bytesOfValue s1)
  | .jmp s => bytesOfValue s
  | .call s => bytesOfValue s
  | .ret => some []
  | .j cc t => join2 (some [byteOfCond cc]) (bytesOfLblOperand t)

/-- The encoder: the bytes of a term whose shape is well-formed. -/
def encode (i : Instr) : Option (List Byte) :=
  match i.shapeReason, bytesOfFields i with
  | none, some bs => some (BitVec.ofNat 8 i.tag :: bs)
  | _, _ => none

/-- The first `n` bytes of the number `w`, least significant first. -/
def bytesOfNat : Nat → Nat → List Byte
  | 0, _ => []
  | n + 1, w => BitVec.ofNat 8 w :: bytesOfNat n (w / 256)

/-- The host's entry: the instruction whose table bits are `w`, every field after them zero. No term is
longer than 32 bytes. -/
def decodeTableWord (nbits w : Nat) : Option Instr :=
  match decode (bytesOfNat ((nbits + 7) / 8) w ++ List.replicate 32 0#8) with
  | .ok (i, _) => some i
  | .error _ => none

end Sys2Proof
end

