-- ==== Sys2Proof/Machine/Load.lean ====
section
/-! DEFINITION. What the host does before a run: it places a program, fixes its labels and builds the
launch state (20_memory.md R41, R42; 70_reset_and_hazards.md R160, R162). -/

namespace Sys2Proof.Machine

/-- A line of a program text: its address, the labels attached to it, its instruction (20_memory.md R41,
R42). -/
structure Line where
  addr : Word
  labels : List Label
  instr : Instr
  deriving DecidableEq, Repr

/-- A program with a layout (20_memory.md R41, R42). -/
structure Program where
  /-- The instructions in program order. -/
  text : List Line
  /-- `next` of the last instruction. -/
  last : Word
  /-- The data labels and their addresses. -/
  data : List (Label × Word)
  deriving DecidableEq, Repr

/-- `Code` and `next` of a text (20_memory.md R41): `next` is the address of the textually following
instruction, and `last` after the last one. -/
def placeText (last : Word) : List Line → List (Nat × CodeCell)
  | [] => []
  | ln :: rest =>
    (ln.addr.toNat, { instr := ln.instr, next := (rest.head?.map Line.addr).getD last })
      :: placeText last rest

def Program.code (q : Program) : List (Nat × CodeCell) := placeText q.last q.text

/-- A code label's address is that of the instruction it is attached to (20_memory.md R42). -/
def Program.codeLabels (q : Program) : List (Nat × Word) :=
  q.text.flatMap fun ln => ln.labels.map fun l => (l.val, ln.addr)

def Program.dataLabels (q : Program) : List (Nat × Word) := q.data.map fun d => (d.1.val, d.2)

/-- `LblAddr` of a program (20_memory.md R42). -/
def Program.labels (q : Program) : List (Nat × Word) := q.codeLabels ++ q.dataLabels

/-- The address of instruction `k` under the reference layout RL4, and of a code label attached to it
(20_memory.md R41). -/
def addrRL4 (k : Nat) : Word := Config.codeBase + 4#32 * BitVec.ofNat 32 k

/-- RL4 from instruction `k` on. -/
def textRL4 (k : Nat) : List (List Label × Instr) → List Line
  | [] => []
  | (labels, instr) :: rest => { addr := addrRL4 k, labels, instr } :: textRL4 (k + 1) rest

/-- A program, labels attached, under the reference layout RL4 (20_memory.md R41). -/
def programRL4 (lines : List (List Label × Instr)) (data : List (Label × Word)) : Program where
  text := textRL4 0 lines
  last := addrRL4 lines.length
  data := data

/-- A launch state (70_reset_and_hazards.md R160): the program and the parameters are given, and so are
the values the spec leaves arbitrary, `Reg0`, `Flags0`, `Mem0` (00_scope.md section 4). -/
def State.launch (p : Config.Params) (code : List (Nat × CodeCell)) (labels : List (Nat × Word))
    (reg0 : RegFile) (flags0 : Flags) (mem0 : Memory) : State where
  regs := reg0.set .esp p.espInit
  pc := p.entry
  flags := flags0
  mem := writeWord mem0 p.espInit p.haltAddr
  status := .running
  code := code
  labels := labels
  params := p
  draws := 0

/-- The state with a program loaded: its code, its labels, and EIP at its entry. -/
def State.load (s : State) (code : List (Nat × CodeCell)) (labels : List (Nat × Word)) : State :=
  { s with code := code, labels := labels, pc := s.params.entry }

/-- The labels that stand as displacements: labelled data (20_memory.md R42). -/
def dispLabels : Operand → List Label
  | .ind m => (m.disp.map Disp.labels).getD []
  | .lbl _ => []
  | .reg _ => []
  | .imm _ => []

/-- Resolve the labels that are not resolved yet, each to `a` (20_memory.md R42, load time; log 16). -/
def resolveAll (a : Word) (ls : List Label) (known : List (Nat × Word)) : List (Nat × Word) :=
  ls.foldl (fun k l => if (lookup l.val k).isSome then k else k ++ [(l.val, a)]) known

/-- The labels of one instruction at `a` resolved: one that stands as a displacement is a data label and
resolves to the lowest valid address, any other is a code label and resolves to `a` (20_memory.md R42;
log 16). -/
def resolveFor (p : Config.Params) (a : Word) (i : Instr) (known : List (Nat × Word)) : List (Nat × Word) :=
  resolveAll a i.labels (resolveAll p.memLo (i.operands.flatMap dispLabels) known)

/-- The instruction at `a` replaced in a program that has one there, else the instruction added at the end
of the text with `a + 4` as what follows (log 16). -/
def placeCell (a : Word) (i : Instr) : List (Nat × CodeCell) → List (Nat × CodeCell)
  | [] => [(a.toNat, { instr := i, next := a + 4#32 })]
  | (k, c) :: rest =>
    if k = a.toNat then (k, { c with instr := i }) :: rest else (k, c) :: placeCell a i rest

/-- Place one instruction at `a`, its labels resolved. -/
def State.placeInstr (s : State) (a : Word) (i : Instr) : State :=
  { s with
    code := placeCell a i s.code
    labels := resolveFor s.params a i s.labels }

/-- The address the next fetch can read from: EIP, or the entry where EIP is `HALT_ADDR`, at which no
instruction may stand (20_memory.md R41; log 16). -/
def State.fetchAddr (s : State) : Word := if s.pc = s.params.haltAddr then s.params.entry else s.pc

/-- The decoded instruction loaded where the next step fetches, in a running machine; where the word
spells no instruction, none stands there (log 16). -/
def State.placeTableWord (s : State) (nbits w : Nat) : State :=
  let t := (s.setStatus .running).setPc s.fetchAddr
  match decodeTableWord nbits w with
  | some i => t.placeInstr t.pc i
  | none => { t with code := erase t.pc.toNat t.code }

end Sys2Proof.Machine
end

