-- ==== Sys2Proof/Machine/Step.lean ====
section
/-! DEFINITION. One step (20_memory.md R43, 60_exceptions.md R141, R150, R152), and the host's way to load
one instruction. -/

namespace Sys2Proof.Machine

/-- One step: in a running state the end of the run, the fetch, and then the whole instruction
atomically. A fault, the fetch's too, is taken: it becomes the status and nothing else changes (log 13).
A stopped machine has no further step (10_state.md R20): a faulted one answers its fault, a halted one
that the run has ended. -/
def step (s : State) : Host.Outcome State Fault Refusal :=
  match s.status with
  | .running =>
    if s.pc = s.params.haltAddr then .next (haltRun s)
    else
      match s.fetched with
      | none => .next (takeFault (.fetchFault s.pc) s)
      | some cell => settle s (exec cell.instr s)
  | .halted => .refused .runEnded
  | .faulted f => .fault f

/-- The host's entry: the instruction whose table bits are `w` placed where the next step fetches. -/
def State.withFetchWord (s : State) (nbits w : Nat) : State := s.placeTableWord nbits w

end Sys2Proof.Machine
end

