-- ==== Sys2Proof/Safety.lean ====
section
/-! DEFINITION. The terms claims use: the invariants of a state, the launch states (70_reset_and_hazards.md
R160), a safe step and a finished run (60_exceptions.md R141, R150, R151). -/

namespace Sys2Proof.Machine

/-- No key twice. -/
abbrev DistinctKeys {α : Type} (l : List (Nat × α)) : Prop := (l.map Prod.fst).Nodup

/-- `next` is the address of the following instruction in program order, and of the last an address at
which no instruction stands (20_memory.md R41). -/
abbrev NextFollows (code : List (Nat × CodeCell)) : Prop :=
  code.IsChain (fun c d => c.2.next.toNat = d.1) ∧
  (code.getLast?.all fun c => (lookup c.2.next.toNat code).isNone) = true

/-- The program's part of a well-formed state: distinct code addresses below 2^32, `next` following the
text, no instruction at `HALT_ADDR` (20_memory.md R41); no label twice, and each resolved to an address at
which an instruction stands or to a valid data address (R42). -/
abbrev State.programWf (s : State) : Prop :=
  DistinctKeys s.code ∧ (∀ c ∈ s.code, c.1 < 4294967296) ∧ NextFollows s.code ∧
  lookup s.params.haltAddr.toNat s.code = none ∧
  DistinctKeys s.labels ∧
  ∀ l ∈ s.labels, (lookup l.2.toNat s.code).isSome = true ∨ validAddr s.params l.2 = true

/-- What 20_memory.md R41 and R42 require of a program with its layout: distinct addresses; after the last
instruction, and at `HALT_ADDR`, none; no label twice; data labels at valid addresses. -/
abbrev Program.wf (p : Config.Params) (q : Program) : Prop :=
  (q.text.map Line.addr).Nodup ∧ q.last ∉ q.text.map Line.addr ∧ p.haltAddr ∉ q.text.map Line.addr ∧
  DistinctKeys q.labels ∧ (q.data.all fun d => validAddr p d.2) = true

/-- A well-formed state: memory in canonical form, parameters and program as the spec requires them. -/
abbrev State.wf (s : State) : Prop := s.mem.wf ∧ s.params.wf ∧ s.programWf

/-- Every instruction of the program is well-formed, its labels resolved (70_reset_and_hazards.md R160
item 6). -/
abbrev State.termsWf (s : State) : Prop := ∀ c ∈ s.code, illFormed s c.2.instr = none

/-- A launch state of the program it holds (70_reset_and_hazards.md R160, items 1 to 6). Every register but
ESP, the flags and every other memory word are unconstrained. -/
structure State.IsLaunch (s : State) : Prop where
  running : s.status = .running
  atEntry : s.pc = s.params.entry ∧ s.fetched.isSome
  stack : s.reg .esp = s.params.espInit
  returnAddress : readWord s.mem s.params.espInit = s.params.haltAddr
  state : s.wf
  terms : s.termsWf

/-- No fault has been taken. -/
def State.unfaulted (s : State) : Bool :=
  match s.status with
  | .running => true
  | .halted => true
  | .faulted _ => false

/-- A step that raises no fault: the terms a claim proves "no fault is reached" in (60_exceptions.md
R141). -/
def SafeStep (s : State) : Prop := ∃ t, step s = .next t ∧ t.unfaulted = true

/-- A successful run of `k` steps ends Halted (60_exceptions.md R150). -/
def HaltsIn (k : Nat) (s t : State) : Prop := Sys2Proof.core.run k s = .next t ∧ t.status = .halted

end Sys2Proof.Machine
end

