-- ==== Sys2Proof/Certificates/Slice0/Obligations.lean ====
section
/-! DEFINITION. The statements for the provers. `Sys2Proof.Claims` holds the shapes several statements
share; each `Obligations.<Name>` is one statement. Where a clause rests on a decision of the spec
(92_eei_decisions.md) or on an entry of the assumption log, its docstring says so. -/

namespace Sys2Proof.Claims

open Sys2Proof.Machine

/-- The whole rule of an instruction with one DEST that it reads and writes: an ill-formed term and an
unreadable DEST fault, and otherwise it completes with this result, these flags and EIP advanced. -/
def UnaryRule (mk : Operand → Instr) (result : State → Word → Word) (flags : State → Word → Flags) : Prop :=
  ∀ (s : State) (dst : Operand),
    (∀ r, illFormed s (mk dst) = some r → exec (mk dst) s = .fault (.illFormed r)) ∧
    (illFormed s (mk dst) = none →
      (∀ f, value s dst = .error f → exec (mk dst) s = .fault f) ∧
      (∀ d, value s dst = .ok d → ∃ u, store s dst (result s d) = .ok u ∧
        exec (mk dst) s = .next ((u.setFlags (flags s d)).setPc s.nextPc)))

/-- The whole rule of an instruction that reads SRC, then DEST, and writes DEST. -/
def BinaryRule (mk : Operand → Operand → Instr) (result : Word → Word → Word)
    (flags : State → Word → Word → Flags) : Prop :=
  ∀ (s : State) (src dst : Operand),
    (∀ r, illFormed s (mk src dst) = some r → exec (mk src dst) s = .fault (.illFormed r)) ∧
    (illFormed s (mk src dst) = none →
      (∀ f, value s src = .error f → exec (mk src dst) s = .fault f) ∧
      (∀ v f, value s src = .ok v → value s dst = .error f → exec (mk src dst) s = .fault f) ∧
      (∀ v d, value s src = .ok v → value s dst = .ok d → ∃ u, store s dst (result v d) = .ok u ∧
        exec (mk src dst) s = .next ((u.setFlags (flags s v d)).setPc s.nextPc)))

/-- The flags after a shift by `n` with result `r`: none written for n = 0; else SF and ZF as usual, and
OF is `overflow1` for n = 1 and kept for n ≥ 2. -/
def AfterShift (old : Flags) (n : Nat) (r : Word) (overflow1 : Bool) (new : Flags) : Prop :=
  (n = 0 → new = old) ∧
  (n ≠ 0 → new.sf = r.msb ∧ new.zf = decide (r = 0#32)) ∧
  (n = 1 → new.of = overflow1) ∧
  (2 ≤ n → new.of = old.of)

/-- The whole rule of Sar and Shr: a count out of range faults before DEST is looked at. -/
def ShiftRule (mk : Operand → Operand → Instr) (result : Word → Nat → Word) (overflow1 : Word → Bool) : Prop :=
  ∀ (s : State) (amt dst : Operand),
    (∀ r, illFormed s (mk amt dst) = some r → exec (mk amt dst) s = .fault (.illFormed r)) ∧
    (illFormed s (mk amt dst) = none → ∃ c, value s amt = .ok c ∧
      (∀ f, shiftCount s c = .error f → exec (mk amt dst) s = .fault f) ∧
      (∀ n f, shiftCount s c = .ok n → value s dst = .error f → exec (mk amt dst) s = .fault f) ∧
      (∀ n d, shiftCount s c = .ok n → value s dst = .ok d → ∃ u new,
        store s dst (result d n) = .ok u ∧ AfterShift s.flags n (result d n) (overflow1 d) new ∧
        exec (mk amt dst) s = .next ((u.setFlags new).setPc s.nextPc)))

/-- The instructions whose only explicit write is the one location `dst`: Neg, Add, Sub, Not, And, Or, Xor,
Sar, Shl, Shr, Setb, Mov. -/
def WritesOnly : Instr → Operand → Prop
  | .neg d, dst => d = dst
  | .add _ d, dst => d = dst
  | .sub _ d, dst => d = dst
  | .imul _ _, _ => False
  | .not d, dst => d = dst
  | .and _ d, dst => d = dst
  | .or _ d, dst => d = dst
  | .xor _ d, dst => d = dst
  | .sar _ d, dst => d = dst
  | .shl _ d, dst => d = dst
  | .shr _ d, dst => d = dst
  | .setb _ d, dst => d = dst
  | .lea _ _, _ => False
  | .mov _ d, dst => d = dst
  | .push _, _ => False
  | .pop _, _ => False
  | .cmp _ _, _ => False
  | .jmp _, _ => False
  | .call _, _ => False
  | .ret, _ => False
  | .j _ _, _ => False

/-- Status, program and parameters are as before. -/
def SameProgram (s t : State) : Prop :=
  t.status = s.status ∧ t.code = s.code ∧ t.labels = s.labels ∧ t.params = s.params

/-- The flags, EIP, status, program and parameters are as before, and no draw was taken. -/
def SameControl (s t : State) : Prop :=
  t.flags = s.flags ∧ t.pc = s.pc ∧ t.draws = s.draws ∧ SameProgram s t

/-- Every byte of memory outside the word at `a` reads as before. -/
def SameOutside (s t : State) (a : Word) : Prop :=
  ∀ b : Nat, b < a.toNat ∨ a.toNat + 4 ≤ b → readByte t.mem b = readByte s.mem b

/-- Every byte of memory reads as before. -/
def SameMemory (s t : State) : Prop := ∀ b : Nat, readByte t.mem b = readByte s.mem b

/-- An Ind whose index is not ESP and whose label, if any, is resolved (30_encoding.md R56, R62). -/
def IndOk (s : State) (m : Ind) : Prop :=
  (∀ r scale, m.index = some (r, scale) → r ≠ .esp) ∧
  (∀ l, m.disp = some (.label l) → ∃ a, s.labelAddr l = some a)

/-- "value" of R62's table. -/
def ValueOk (s : State) : Operand → Prop
  | .imm _ => True
  | .lbl l => ∃ a, s.labelAddr l = some a
  | .reg _ => True
  | .ind m => IndOk s m

/-- "location" of R62's table. -/
def LocationOk (s : State) : Operand → Prop
  | .imm _ => False
  | .lbl _ => False
  | .reg _ => True
  | .ind m => IndOk s m

/-- Not both operands Ind (30_encoding.md R66). -/
def NotBothInd (o p : Operand) : Prop := ∀ m n, ¬ (o = .ind m ∧ p = .ind n)

/-- The operand does not mention ESP where the policy refuses that (30_encoding.md R69). -/
def EspOk (s : State) (o : Operand) : Prop :=
  s.params.espOperand = .refuse → o ≠ .reg .esp ∧ ∀ m, o = .ind m → m.base ≠ some .esp

/-- AMT: Imm, or Reg ECX (30_encoding.md R67). -/
def AmountOk (o : Operand) : Prop := (∃ i, o = .imm i) ∨ o = .reg .ecx

/-- R62's table, row by row. -/
def Admitted (s : State) : Instr → Prop
  | .neg d => LocationOk s d
  | .add v d => ValueOk s v ∧ LocationOk s d ∧ NotBothInd v d
  | .sub v d => ValueOk s v ∧ LocationOk s d ∧ NotBothInd v d
  | .imul v d => ValueOk s v ∧ ∃ r, d = .reg r
  | .not d => LocationOk s d
  | .and v d => ValueOk s v ∧ LocationOk s d ∧ NotBothInd v d
  | .or v d => ValueOk s v ∧ LocationOk s d ∧ NotBothInd v d
  | .xor v d => ValueOk s v ∧ LocationOk s d ∧ NotBothInd v d
  | .sar a d => AmountOk a ∧ LocationOk s d
  | .shl a d => AmountOk a ∧ LocationOk s d
  | .shr a d => AmountOk a ∧ LocationOk s d
  | .setb _ d => LocationOk s d
  | .lea m d => (∃ n, m = .ind n ∧ IndOk s n) ∧ ∃ r, d = .reg r
  | .mov v d => ValueOk s v ∧ LocationOk s d ∧ NotBothInd v d
  | .push v => ValueOk s v ∧ EspOk s v
  | .pop d => LocationOk s d ∧ EspOk s d
  | .cmp v d => ValueOk s v ∧ ValueOk s d ∧ NotBothInd v d
  | .jmp v => ValueOk s v
  | .call v => ValueOk s v ∧ EspOk s v
  | .ret => True
  | .j _ t => ∃ l a, t = .lbl l ∧ s.labelAddr l = some a

/-- What a term that breaks one check of 30_encoding.md R70 looks like, check by check in R70's words. Imul's
and Lea's second operands have checks (5) and (7) for them, and not (1) (log 14); a term has no number to
break (11) with. -/
def Broken (s : State) (i : Instr) : IllFormedReason → Prop
  | .destNotLocation => ∃ d, (WritesOnly i d ∨ i = .pop d) ∧ ((∃ w, d = .imm w) ∨ ∃ l, d = .lbl l)
  | .twoIndirect => ∃ m n : Ind, i ∈ [Instr.add (.ind m) (.ind n), .sub (.ind m) (.ind n),
      .and (.ind m) (.ind n), .or (.ind m) (.ind n), .xor (.ind m) (.ind n), .mov (.ind m) (.ind n),
      .cmp (.ind m) (.ind n)]
  | .indexEsp => ∃ m scale, Operand.ind m ∈ i.operands ∧ m.index = some (.esp, scale)
  | .badAmount => ∃ a d, i ∈ [Instr.sar a d, .shl a d, .shr a d] ∧ ¬ AmountOk a
  | .imulDestNotReg => ∃ v d, i = .imul v d ∧ ∀ r, d ≠ .reg r
  | .leaSourceNotInd => ∃ v d, i = .lea v d ∧ ∀ m, v ≠ .ind m
  | .leaDestNotReg => ∃ v d, i = .lea v d ∧ ∀ r, d ≠ .reg r
  | .targetNotLabel => ∃ cc t, i = .j cc t ∧ ∀ l, t ≠ .lbl l
  | .unresolvedLabel => ∃ l, s.labelAddr l = none ∧ (Operand.lbl l ∈ i.operands ∨
      ∃ m, Operand.ind m ∈ i.operands ∧ m.disp = some (.label l))
  | .mentionsEsp => ∃ o, i ∈ [Instr.push o, .pop o, .call o] ∧ ¬ EspOk s o
  | .badNumber => False

/-- An outcome with the draw counter moved by `n`. -/
def moveDraws (n : Nat) : Host.Outcome State Fault Refusal → Host.Outcome State Fault Refusal
  | .next t => .next (t.addDraws n)
  | .fault f => .fault f
  | .refused r => .refused r

/-- Does the instruction take a draw: Imul, and Shl under `Shl1OfPolicy = Either`. -/
def Draws (p : Config.Params) : Instr → Prop
  | .imul _ _ => True
  | .shl _ _ => p.shl1Of = .either
  | .neg _ => False
  | .add _ _ => False
  | .sub _ _ => False
  | .not _ => False
  | .and _ _ => False
  | .or _ _ => False
  | .xor _ _ => False
  | .sar _ _ => False
  | .shr _ _ => False
  | .setb _ _ => False
  | .lea _ _ => False
  | .mov _ _ => False
  | .push _ => False
  | .pop _ => False
  | .cmp _ _ => False
  | .jmp _ => False
  | .call _ => False
  | .ret => False
  | .j _ _ => False

/-- The ten instructions that write no flag (10_state.md R17). -/
def WritesNoFlag : Instr → Prop
  | .not _ => True
  | .setb _ _ => True
  | .lea _ _ => True
  | .mov _ _ => True
  | .push _ => True
  | .pop _ => True
  | .jmp _ => True
  | .call _ => True
  | .ret => True
  | .j _ _ => True
  | .neg _ => False
  | .add _ _ => False
  | .sub _ _ => False
  | .imul _ _ => False
  | .and _ _ => False
  | .or _ _ => False
  | .xor _ _ => False
  | .sar _ _ => False
  | .shl _ _ => False
  | .shr _ _ => False
  | .cmp _ _ => False

/-- Jmp, Call, Ret and J, the only instructions that write EIP other than by the advance. -/
def IsTransfer : Instr → Prop
  | .jmp _ => True
  | .call _ => True
  | .ret => True
  | .j _ _ => True
  | .neg _ => False
  | .add _ _ => False
  | .sub _ _ => False
  | .imul _ _ => False
  | .not _ => False
  | .and _ _ => False
  | .or _ _ => False
  | .xor _ _ => False
  | .sar _ _ => False
  | .shl _ _ => False
  | .shr _ _ => False
  | .setb _ _ => False
  | .lea _ _ => False
  | .mov _ _ => False
  | .push _ => False
  | .pop _ => False
  | .cmp _ _ => False

end Sys2Proof.Claims

open Sys2Proof Sys2Proof.Machine Sys2Proof.Claims

/-! ## Instructions: result, flags, EIP, faults

In every one of these the advance of EIP is spec decision D3, IllFormed is D10, MemFault is D7, and a fault
that writes nothing is D18; where several reasons make a term ill-formed the one reported is log 14. -/

/-- 40_arithmetic.md R80. -/
def Obligations.NegRule : Prop :=
  UnaryRule .neg (fun _ d => -d) fun _ d =>
    { of := decide (d = 0x80000000#32), sf := (-d).msb, zf := decide (d = 0#32) }

/-- 40_arithmetic.md R81: the sign of the 64-bit sign extension is the operand's top bit. -/
def Obligations.AddRule : Prop :=
  BinaryRule .add (fun v d => d + v) fun _ v d =>
    { of := decide (v.msb = d.msb ∧ (d + v).msb ≠ v.msb), sf := (d + v).msb, zf := decide (d + v = 0#32) }

/-- 40_arithmetic.md (3), for both values of `SubMinIntOf` (spec decision D16; the value TrueOverflow is
from general knowledge, log 7). -/
def Obligations.SubRule : Prop :=
  BinaryRule .sub (fun v d => d - v) fun s v d =>
    { of := decide (((d.signExtend 64).msb = (-(v.signExtend 64)).msb ∧
          (d - v).msb ≠ (-(v.signExtend 64)).msb) ∨
        (v = 0x80000000#32 ∧ s.params.subMinIntOf = .source)),
      sf := (d - v).msb, zf := decide (d - v = 0#32) }

/-- 40_arithmetic.md (4): OF by the exact product; SF and ZF are the next two free bits, whatever they are
(spec decision D13, log 8). -/
def Obligations.ImulRule : Prop :=
  ∀ (s : State) (src dst : Operand),
    (∀ r, illFormed s (.imul src dst) = some r → exec (.imul src dst) s = .fault (.illFormed r)) ∧
    (illFormed s (.imul src dst) = none → ∃ r, dst = .reg r ∧
      (∀ f, value s src = .error f → exec (.imul src dst) s = .fault f) ∧
      (∀ v, value s src = .ok v →
        exec (.imul src dst) s = .next
          ((((s.setReg r (s.reg r * v)).setFlags
            { of := decide ((s.reg r).toInt * v.toInt < -2147483648 ∨
                2147483647 < (s.reg r).toInt * v.toInt),
              sf := Config.freeBit s.draws, zf := Config.freeBit (s.draws + 1) }).addDraws 2).setPc
            s.nextPc)))

/-- 41_logic.md R90. -/
def Obligations.NotRule : Prop :=
  UnaryRule .not (fun _ d => BitVec.allOnes 32 ^^^ d) fun s _ => s.flags

/-- 41_logic.md R91. -/
def Obligations.AndRule : Prop :=
  BinaryRule .and (fun v d => d &&& v) fun _ v d =>
    { of := false, sf := (d &&& v).msb, zf := decide (d &&& v = 0#32) }

/-- 41_logic.md R92. -/
def Obligations.OrRule : Prop :=
  BinaryRule .or (fun v d => d ||| v) fun _ v d =>
    { of := false, sf := (d ||| v).msb, zf := decide (d ||| v = 0#32) }

/-- 41_logic.md R93. -/
def Obligations.XorRule : Prop :=
  BinaryRule .xor (fun v d => d ^^^ v) fun _ v d =>
    { of := false, sf := (d ^^^ v).msb, zf := decide (d ^^^ v = 0#32) }

/-- 42_bit_manipulation.md (9): floor(signed(DEST) / 2^n); OF is 0 after a count of 1. A count out of range
is spec decision D11, the access to DEST for a count of 0 is D25. -/
def Obligations.SarRule : Prop :=
  ShiftRule .sar (fun d n => BitVec.ofInt 32 (d.toInt / 2 ^ n)) fun _ => false

/-- 42_bit_manipulation.md (10): DEST * 2^n; OF after a count of 1 by the top two bits, else by
`Shl1OfPolicy`, where `Either` is the old OF or 0 as the next free bit says (spec decision D12, log 9). -/
def Obligations.ShlRule : Prop :=
  ∀ (s : State) (amt dst : Operand),
    (∀ r, illFormed s (.shl amt dst) = some r → exec (.shl amt dst) s = .fault (.illFormed r)) ∧
    (illFormed s (.shl amt dst) = none → ∃ c, value s amt = .ok c ∧
      (∀ f, shiftCount s c = .error f → exec (.shl amt dst) s = .fault f) ∧
      (∀ n f, shiftCount s c = .ok n → value s dst = .error f → exec (.shl amt dst) s = .fault f) ∧
      (∀ n d, shiftCount s c = .ok n → value s dst = .ok d → ∃ u new k overflow1,
        store s dst (d * BitVec.ofNat 32 (2 ^ n)) = .ok u ∧
        AfterShift s.flags n (d * BitVec.ofNat 32 (2 ^ n)) overflow1 new ∧
        (d.getLsbD 31 ≠ d.getLsbD 30 → overflow1 = true) ∧
        (d.getLsbD 31 = d.getLsbD 30 → s.params.shl1Of = .unchanged → overflow1 = s.flags.of) ∧
        (d.getLsbD 31 = d.getLsbD 30 → s.params.shl1Of = .cleared → overflow1 = false) ∧
        (d.getLsbD 31 = d.getLsbD 30 → s.params.shl1Of = .either →
          overflow1 = (s.flags.of && Config.freeBit s.draws)) ∧
        (k = if n = 1 ∧ d.getLsbD 31 = d.getLsbD 30 ∧ s.params.shl1Of = .either then 1 else 0) ∧
        exec (.shl amt dst) s = .next (((u.setFlags new).addDraws k).setPc s.nextPc)))

/-- 42_bit_manipulation.md (11): floor(unsigned(DEST) / 2^n); OF after a count of 1 is the old bit 31. The
count and count 0 as for Sar (spec decisions D11, D25). -/
def Obligations.ShrRule : Prop :=
  ShiftRule .shr (fun d n => BitVec.ofNat 32 (d.toNat / 2 ^ n)) fun d => d.getLsbD 31

/-- 42_bit_manipulation.md (12), with decision D24 for an Ind DEST: bits 31..8 kept, bits 7..0 become 1 or
0. -/
def Obligations.SetbRule : Prop :=
  ∀ cc : CondCode,
    UnaryRule (.setb cc)
      (fun s d => (d &&& 0xFFFFFF00#32) ||| (if cond s.flags cc = true then 1#32 else 0#32))
      fun s _ => s.flags

/-- 43_data_movement.md R110: the address itself is moved, valid or not; no memory is accessed. -/
def Obligations.LeaRule : Prop :=
  ∀ (s : State) (src dst : Operand),
    (∀ r, illFormed s (.lea src dst) = some r → exec (.lea src dst) s = .fault (.illFormed r)) ∧
    (illFormed s (.lea src dst) = none → ∃ m r a, src = .ind m ∧ dst = .reg r ∧ effAddr s m = .ok a ∧
      exec (.lea src dst) s = .next ((s.setReg r a).setPc s.nextPc))

/-- 43_data_movement.md R111: DEST is not read. -/
def Obligations.MovRule : Prop :=
  ∀ (s : State) (src dst : Operand),
    (∀ r, illFormed s (.mov src dst) = some r → exec (.mov src dst) s = .fault (.illFormed r)) ∧
    (illFormed s (.mov src dst) = none →
      (∀ f, value s src = .error f → exec (.mov src dst) s = .fault f) ∧
      (∀ v f, value s src = .ok v → store s dst v = .error f → exec (.mov src dst) s = .fault f) ∧
      (∀ v, value s src = .ok v → writable s dst = true →
        ∃ u, store s dst v = .ok u ∧ exec (.mov src dst) s = .next (u.setPc s.nextPc)))

/-- 43_data_movement.md (15), every `EspOperandPolicy` (spec decision D14): the operand is evaluated with
the old ESP, but under `Sequential` with the new; the operand's fault comes first. -/
def Obligations.PushRule : Prop :=
  ∀ (s : State) (src : Operand),
    (∀ r, illFormed s (.push src) = some r → exec (.push src) s = .fault (.illFormed r)) ∧
    (illFormed s (.push src) = none → ∀ view : State,
      (s.params.espOperand ≠ .sequential → view = s) →
      (s.params.espOperand = .sequential → view = s.setReg .esp (s.reg .esp - 4#32)) →
      (∀ f, value view src = .error f → exec (.push src) s = .fault f) ∧
      (∀ v, value view src = .ok v → validAddr s.params (s.reg .esp - 4#32) = false →
        exec (.push src) s = .fault (.memFault (s.reg .esp - 4#32))) ∧
      (∀ v, value view src = .ok v → validAddr s.params (s.reg .esp - 4#32) = true →
        exec (.push src) s = .next
          (((s.setMem (writeWord s.mem (s.reg .esp - 4#32) v)).setReg .esp (s.reg .esp - 4#32)).setPc
            s.nextPc)))

/-- 43_data_movement.md (16), every `EspOperandPolicy` (spec decision D14): the word at ESP goes to DEST and
ESP goes up by 4, DEST written before the increment, but under `IA32Order` after it. -/
def Obligations.PopRule : Prop :=
  ∀ (s : State) (dst : Operand),
    (∀ r, illFormed s (.pop dst) = some r → exec (.pop dst) s = .fault (.illFormed r)) ∧
    (illFormed s (.pop dst) = none →
      (validAddr s.params (s.reg .esp) = false →
        exec (.pop dst) s = .fault (.memFault (s.reg .esp))) ∧
      (validAddr s.params (s.reg .esp) = true → s.params.espOperand ≠ .ia32Order →
        (∀ f, store s dst (readWord s.mem (s.reg .esp)) = .error f → exec (.pop dst) s = .fault f) ∧
        (writable s dst = true → ∃ u, store s dst (readWord s.mem (s.reg .esp)) = .ok u ∧
          exec (.pop dst) s = .next ((u.setReg .esp (u.reg .esp + 4#32)).setPc s.nextPc))) ∧
      (validAddr s.params (s.reg .esp) = true → s.params.espOperand = .ia32Order →
        (∀ f, store (s.setReg .esp (s.reg .esp + 4#32)) dst (readWord s.mem (s.reg .esp)) = .error f →
          exec (.pop dst) s = .fault f) ∧
        (writable (s.setReg .esp (s.reg .esp + 4#32)) dst = true →
          ∃ u, store (s.setReg .esp (s.reg .esp + 4#32)) dst (readWord s.mem (s.reg .esp)) = .ok u ∧
            exec (.pop dst) s = .next (u.setPc s.nextPc))))

/-- 44_control_flow.md (17): the flags of SRC1 - SRC2 (second minus first operand, 90_conflicts.md C2),
nothing else written; both values of `SubMinIntOf` (spec decision D16, log 7). -/
def Obligations.CmpRule : Prop :=
  ∀ (s : State) (src2 src1 : Operand),
    (∀ r, illFormed s (.cmp src2 src1) = some r → exec (.cmp src2 src1) s = .fault (.illFormed r)) ∧
    (illFormed s (.cmp src2 src1) = none →
      (∀ f, value s src2 = .error f → exec (.cmp src2 src1) s = .fault f) ∧
      (∀ v f, value s src2 = .ok v → value s src1 = .error f → exec (.cmp src2 src1) s = .fault f) ∧
      (∀ v d, value s src2 = .ok v → value s src1 = .ok d →
        exec (.cmp src2 src1) s = .next ((s.setFlags
          { of := decide (((d.signExtend 64).msb = (-(v.signExtend 64)).msb ∧
                (d - v).msb ≠ (-(v.signExtend 64)).msb) ∨
              (v = 0x80000000#32 ∧ s.params.subMinIntOf = .source)),
            sf := (d - v).msb, zf := decide (d = v) }).setPc s.nextPc)))

/-- 44_control_flow.md R121: any word may become EIP. -/
def Obligations.JmpRule : Prop :=
  ∀ (s : State) (src : Operand),
    (∀ r, illFormed s (.jmp src) = some r → exec (.jmp src) s = .fault (.illFormed r)) ∧
    (illFormed s (.jmp src) = none →
      (∀ f, value s src = .error f → exec (.jmp src) s = .fault f) ∧
      (∀ a, value s src = .ok a → exec (.jmp src) s = .next (s.setPc a)))

/-- 44_control_flow.md (19): the address of the following instruction (spec decision D15) is pushed and EIP
takes SRC's value, every `EspOperandPolicy` (spec decision D14): the value before the push, but under
`Sequential` the value after it, in the state the push leaves (the rule's own text; log 15). Under every
policy SRC's fault, met with the ESP the policy gives, comes before the stack slot's. -/
def Obligations.CallRule : Prop :=
  ∀ (s : State) (src : Operand),
    (∀ r, illFormed s (.call src) = some r → exec (.call src) s = .fault (.illFormed r)) ∧
    (illFormed s (.call src) = none → ∀ view pushed : State,
      (s.params.espOperand ≠ .sequential → view = s) →
      (s.params.espOperand = .sequential → view = s.setReg .esp (s.reg .esp - 4#32)) →
      pushed = (s.setMem (writeWord s.mem (s.reg .esp - 4#32) s.nextPc)).setReg .esp
        (s.reg .esp - 4#32) →
      (∀ f, value view src = .error f → exec (.call src) s = .fault f) ∧
      (∀ v, value view src = .ok v → validAddr s.params (s.reg .esp - 4#32) = false →
        exec (.call src) s = .fault (.memFault (s.reg .esp - 4#32))) ∧
      (∀ v, value view src = .ok v → validAddr s.params (s.reg .esp - 4#32) = true →
        (s.params.espOperand ≠ .sequential → exec (.call src) s = .next (pushed.setPc v)) ∧
        (s.params.espOperand = .sequential →
          ∃ a, value pushed src = .ok a ∧ exec (.call src) s = .next (pushed.setPc a))))

/-- 44_control_flow.md R123. Ret has no operand, so it is never ill-formed. -/
def Obligations.RetRule : Prop :=
  ∀ s : State,
    (validAddr s.params (s.reg .esp) = false → exec .ret s = .fault (.memFault (s.reg .esp))) ∧
    (validAddr s.params (s.reg .esp) = true →
      exec .ret s = .next
        ((s.setReg .esp (s.reg .esp + 4#32)).setPc (readWord s.mem (s.reg .esp))))

/-- 44_control_flow.md R124. The fallthrough is the layout's `next` (20_memory.md R41) where an instruction
stands at EIP; elsewhere, where no step runs an instruction, `nextPc` is the model's (log 12). -/
def Obligations.ConditionalJumpRule : Prop :=
  ∀ (s : State) (cc : CondCode) (target : Operand),
    (∀ r, illFormed s (.j cc target) = some r → exec (.j cc target) s = .fault (.illFormed r)) ∧
    (illFormed s (.j cc target) = none → ∃ l a, target = .lbl l ∧ s.labelAddr l = some a ∧
      (cond s.flags cc = true → exec (.j cc target) s = .next (s.setPc a)) ∧
      (cond s.flags cc = false → exec (.j cc target) s = .next (s.setPc s.nextPc) ∧
        ∀ cell, lookup s.pc.toNat s.code = some cell → exec (.j cc target) s = .next (s.setPc cell.next)))

/-! ## Operands, memory, flags -/

/-- 30_encoding.md R62 (spec decisions D10, D17) with R56, R66 to R69: the terms that are not ill-formed
are exactly the ones the table admits. -/
def Obligations.WellFormedTermsAreTheTable : Prop :=
  ∀ (s : State) (i : Instr), illFormed s i = none ↔ Admitted s i

/-- 30_encoding.md R70: a reported reason names a check that the term breaks, and only a term that breaks no
check is not ill-formed. That it is the first of them in R70's order is the model's choice (log 14). -/
def Obligations.ReportedReasonIsTheFirstBrokenCheck : Prop :=
  ∀ (s : State) (i : Instr),
    (∀ r, illFormed s i = some r ↔ Broken s i r ∧ ∀ q, q.number < r.number → ¬ Broken s i q) ∧
    (illFormed s i = none ↔ ∀ q, ¬ Broken s i q)

/-- 30_encoding.md R54, R55, R56, R58: what each operand kind denotes as a value. -/
def Obligations.OperandValues : Prop :=
  ∀ s : State,
    (∀ i, value s (.imm i) = .ok i) ∧
    (∀ r, value s (.reg r) = .ok (s.reg r)) ∧
    (∀ l a, s.labelAddr l = some a → value s (.lbl l) = .ok a) ∧
    (∀ l, s.labelAddr l = none → value s (.lbl l) = .error (.illFormed .unresolvedLabel)) ∧
    (∀ m a, effAddr s m = .ok a → a.toNat % 4 = 0 → s.params.memLo.toNat ≤ a.toNat →
      a.toNat ≤ s.params.memHi.toNat → value s (.ind m) = .ok (readWord s.mem a)) ∧
    (∀ m a, effAddr s m = .ok a →
      (a.toNat % 4 ≠ 0 ∨ a.toNat < s.params.memLo.toNat ∨ s.params.memHi.toNat < a.toNat) →
      value s (.ind m) = .error (.memFault a))

/-- 30_encoding.md R57 (spec decision D9): base + index * scale + disp modulo 2^32, an absent part being
0. -/
def Obligations.EffectiveAddressFormula : Prop :=
  ∀ (s : State) (m : Ind) (d : Nat),
    (m.disp = none ∧ d = 0) ∨ (∃ w, m.disp = some (.word w) ∧ d = w.toNat) ∨
      (∃ l a, m.disp = some (.label l) ∧ s.labelAddr l = some a ∧ d = a.toNat) →
    ∃ a, effAddr s m = .ok a ∧
      a.toNat = ((m.base.map fun r => (s.reg r).toNat).getD 0
        + (m.index.map fun p => (s.reg p.1).toNat * p.2.toNat).getD 0 + d) % 4294967296

/-- 30_encoding.md R59, 20_memory.md R33: what a store does to each location, and to nothing else. -/
def Obligations.StoreWritesTheLocation : Prop :=
  ∀ (s : State) (v : Word),
    (∀ r, ∃ t, store s (.reg r) v = .ok t ∧ t.reg r = v ∧ (∀ q, q ≠ r → t.reg q = s.reg q) ∧
      t.mem = s.mem ∧ SameControl s t) ∧
    (∀ m a, effAddr s m = .ok a → validAddr s.params a = true →
      ∃ t, store s (.ind m) v = .ok t ∧ readWord t.mem a = v ∧ SameOutside s t a ∧ t.regs = s.regs ∧
        SameControl s t) ∧
    (∀ m a, effAddr s m = .ok a → validAddr s.params a = false →
      store s (.ind m) v = .error (.memFault a)) ∧
    (∀ i, store s (.imm i) v = .error (.illFormed .destNotLocation)) ∧
    (∀ l, store s (.lbl l) v = .error (.illFormed .destNotLocation))

/-- 20_memory.md R31 to R33 (spec decisions D6, D7): an access completes exactly at the aligned addresses
of the window, and a read after a write of one word sees it and every other word as before. -/
def Obligations.MemoryReadsAndWrites : Prop :=
  ∀ (s : State) (a v : Word),
    ((a.toNat % 4 = 0 ∧ s.params.memLo.toNat ≤ a.toNat ∧ a.toNat ≤ s.params.memHi.toNat) →
      ∃ t, memWrite s a v = .ok t ∧ memRead t a = .ok v ∧ ∀ c, c ≠ a → memRead t c = memRead s c) ∧
    (¬ (a.toNat % 4 = 0 ∧ s.params.memLo.toNat ≤ a.toNat ∧ a.toNat ≤ s.params.memHi.toNat) →
      memRead s a = .error (.memFault a) ∧ memWrite s a v = .error (.memFault a))

/-- 42_bit_manipulation.md R104 (spec decision D11): the effective count under either policy. -/
def Obligations.ShiftCountByPolicy : Prop :=
  ∀ (s : State) (c : Word),
    (s.params.shiftCount = .fault → 31 < c.toNat → shiftCount s c = .error (.shiftCountFault c)) ∧
    (s.params.shiftCount = .fault → c.toNat ≤ 31 → shiftCount s c = .ok c.toNat) ∧
    (s.params.shiftCount = .mask5 → shiftCount s c = .ok (c.extractLsb' 0 5).toNat)

/-- 30_encoding.md R60: the eight codes over the three flags. -/
def Obligations.ConditionCodeTable : Prop :=
  ∀ f : Flags,
    (cond f .eq = true ↔ f.zf = true) ∧ (cond f .zero = true ↔ f.zf = true) ∧
    (cond f .notEq = true ↔ f.zf = false) ∧ (cond f .notZero = true ↔ f.zf = false) ∧
    (cond f .slt = true ↔ (f.sf = true ∧ f.of = false) ∨ (f.sf = false ∧ f.of = true)) ∧
    (cond f .sge = true ↔ ¬ cond f .slt = true) ∧
    (cond f .sle = true ↔ cond f .slt = true ∨ cond f .eq = true) ∧
    (cond f .sgt = true ↔ ¬ cond f .sle = true)

/-- 30_encoding.md R61 (marked derived there): after Cmp the codes compare the operands as signed numbers,
but where SRC2 = MIN_INT, SRC1 is negative and the source's OF clause is in force. -/
def Obligations.CompareThenCondition : Prop :=
  ∀ (s t : State) (src2 src1 : Operand) (v d : Word),
    exec (.cmp src2 src1) s = .next t → value s src2 = .ok v → value s src1 = .ok d →
    (cond t.flags .eq = true ↔ d = v) ∧ (cond t.flags .notEq = true ↔ d ≠ v) ∧
    ((v ≠ 0x80000000#32 ∨ d.msb = false ∨ s.params.subMinIntOf = .trueOverflow) →
      (cond t.flags .slt = true ↔ d.toInt < v.toInt) ∧ (cond t.flags .sge = true ↔ v.toInt ≤ d.toInt) ∧
      (cond t.flags .sle = true ↔ d.toInt ≤ v.toInt) ∧ (cond t.flags .sgt = true ↔ v.toInt < d.toInt)) ∧
    ((v = 0x80000000#32 ∧ d.msb = true ∧ s.params.subMinIntOf = .source) →
      cond t.flags .slt = true ∧ v.toInt ≤ d.toInt)

/-- 40_arithmetic.md (1) to (3), the remarks marked derived there: OF after Neg, Add and Sub is signed
overflow of the exact result, Sub's MIN_INT clause apart. -/
def Obligations.OverflowIsSignedOverflow : Prop :=
  ∀ (s t : State) (src dst : Operand) (v d : Word),
    value s src = .ok v → value s dst = .ok d →
    (exec (.neg dst) s = .next t → (t.flags.of = true ↔ 2147483647 < -d.toInt)) ∧
    (exec (.add src dst) s = .next t →
      (t.flags.of = true ↔ d.toInt + v.toInt < -2147483648 ∨ 2147483647 < d.toInt + v.toInt)) ∧
    (exec (.sub src dst) s = .next t →
      (t.flags.of = true ↔ (d.toInt - v.toInt < -2147483648 ∨ 2147483647 < d.toInt - v.toInt) ∨
        (v = 0x80000000#32 ∧ s.params.subMinIntOf = .source)))

/-! ## Frames -/

/-- 10_state.md R12, 20_memory.md R35: Neg, Add, Sub, Not, And, Or, Xor, Sar, Shl, Shr, Setb and Mov leave
every register but a register DEST, every byte of memory but an Ind DEST's word, and the program alone;
only Shl may take a draw. -/
def Obligations.OneLocationFrame : Prop :=
  ∀ (i : Instr) (dst : Operand) (s t : State), WritesOnly i dst → exec i s = .next t →
    (∀ q, dst ≠ .reg q → t.reg q = s.reg q) ∧
    (∀ r, dst = .reg r → SameMemory s t) ∧
    (∀ m a, dst = .ind m → effAddr s m = .ok a → SameOutside s t a) ∧
    SameProgram s t ∧ ((∀ a d, i ≠ .shl a d) → t.draws = s.draws)

/-- Imul and Lea write a register and no memory; Lea writes no flag. -/
def Obligations.RegisterOnlyFrame : Prop :=
  ∀ (src : Operand) (r : Reg) (s t : State),
    (exec (.imul src (.reg r)) s = .next t →
      (∀ q, q ≠ r → t.reg q = s.reg q) ∧ SameMemory s t ∧ SameProgram s t) ∧
    (exec (.lea src (.reg r)) s = .next t →
      (∀ q, q ≠ r → t.reg q = s.reg q) ∧ SameMemory s t ∧ SameProgram s t ∧ t.flags = s.flags ∧
      t.draws = s.draws)

/-- Push and Call change ESP, by -4, and the word at the new ESP. -/
def Obligations.PushCallFrame : Prop :=
  ∀ (src : Operand) (s t : State), exec (.push src) s = .next t ∨ exec (.call src) s = .next t →
    t.reg .esp = s.reg .esp - 4#32 ∧ (∀ q, q ≠ .esp → t.reg q = s.reg q) ∧
    SameOutside s t (pushSlot s) ∧ t.flags = s.flags ∧ t.draws = s.draws ∧ SameProgram s t

/-- Pop changes DEST and ESP; an Ind DEST is addressed in `popView s`, as Pop addresses it. -/
def Obligations.PopFrame : Prop :=
  ∀ (dst : Operand) (s t : State), exec (.pop dst) s = .next t →
    (dst ≠ .reg .esp → t.reg .esp = s.reg .esp + 4#32) ∧
    (∀ q, q ≠ .esp → dst ≠ .reg q → t.reg q = s.reg q) ∧
    (∀ r, dst = .reg r → SameMemory s t) ∧
    (∀ m a, dst = .ind m → effAddr (popView s) m = .ok a → SameOutside s t a) ∧
    t.flags = s.flags ∧ t.draws = s.draws ∧ SameProgram s t

/-- Cmp, Jmp and J write no register and no memory; Ret writes ESP only; Jmp, J and Ret write no flag. -/
def Obligations.NoStoreFrame : Prop :=
  ∀ (s t : State),
    (∀ a b, exec (.cmp a b) s = .next t → t.regs = s.regs ∧ SameMemory s t ∧ SameProgram s t ∧
      t.draws = s.draws) ∧
    (∀ a, exec (.jmp a) s = .next t → t.regs = s.regs ∧ SameMemory s t ∧ SameProgram s t ∧
      t.flags = s.flags ∧ t.draws = s.draws) ∧
    (∀ cc a, exec (.j cc a) s = .next t → t.regs = s.regs ∧ SameMemory s t ∧ SameProgram s t ∧
      t.flags = s.flags ∧ t.draws = s.draws) ∧
    (exec .ret s = .next t → t.reg .esp = s.reg .esp + 4#32 ∧ (∀ q, q ≠ .esp → t.reg q = s.reg q) ∧
      SameMemory s t ∧ SameProgram s t ∧ t.flags = s.flags ∧ t.draws = s.draws)

/-- 10_state.md R17: Not, Setb, Lea, Mov, Push, Pop, Jmp, Call, Ret and J write no flag. -/
def Obligations.FlaglessInstructionsKeepFlags : Prop :=
  ∀ (i : Instr) (s t : State), WritesNoFlag i → exec i s = .next t → t.flags = s.flags

/-- 10_state.md R13, R14 (spec decisions D2, D3): every other instruction than Jmp, Call, Ret and J
advances EIP to the next instruction: the layout's `next` (20_memory.md R41), no fixed increment, where an
instruction stands at EIP. Elsewhere no step runs an instruction, and `nextPc` is the model's (log 12). -/
def Obligations.OnlyTransfersLeaveTheSequence : Prop :=
  ∀ (i : Instr) (s t : State), ¬ IsTransfer i → exec i s = .next t →
    t.pc = s.nextPc ∧ ∀ cell, lookup s.pc.toNat s.code = some cell → t.pc = cell.next

/-! ## Two instructions together -/

/-- 43_data_movement.md R113, corner cases: Push X, then Pop into a register other than ESP, moves X's
value and restores ESP, under every policy, for X not mentioning ESP. -/
def Obligations.PushThenPopMovesTheValue : Prop :=
  ∀ (s t : State) (src : Operand) (r : Reg) (v : Word),
    exec (.push src) s = .next t → src.mentionsEsp = false → value s src = .ok v → r ≠ .esp →
    ∃ u, exec (.pop (.reg r)) t = .next u ∧ u.reg r = v ∧ u.reg .esp = s.reg .esp ∧
      (∀ q, q ≠ r → u.reg q = s.reg q) ∧ u.flags = s.flags

/-- 44_control_flow.md (19), (20): Ret right after Call returns to the instruction after the Call, the
layout's `next` (20_memory.md R41) where the Call stands at EIP, with the registers and flags as before
(spec decision D15; elsewhere log 12). -/
def Obligations.CallThenRetReturns : Prop :=
  ∀ (s t : State) (src : Operand), exec (.call src) s = .next t →
    ∃ u, exec .ret t = .next u ∧ u.pc = s.nextPc ∧
      (∀ cell, lookup s.pc.toNat s.code = some cell → u.pc = cell.next) ∧
      (∀ q, u.reg q = s.reg q) ∧ u.flags = s.flags

/-! ## Steps -/

/-- 20_memory.md R43, 60_exceptions.md R141, R152: in a running machine with an instruction at EIP, which
is not `HALT_ADDR`, the step is that instruction's, and its fault becomes the status. -/
def Obligations.StepRunsTheInstructionAtEip : Prop :=
  ∀ (s : State) (cell : CodeCell),
    s.status = .running → s.pc ≠ s.params.haltAddr → lookup s.pc.toNat s.code = some cell →
    (∀ t, exec cell.instr s = .next t → step s = .next t) ∧
    (∀ f, exec cell.instr s = .fault f → step s = .next (s.setStatus (.faulted f))) ∧
    (∀ r, exec cell.instr s ≠ .refused r)

/-- 20_memory.md R43 (spec decision D27): no instruction at EIP is a FetchFault, raised by the fetch. -/
def Obligations.FetchFaultWhereNoInstructionStands : Prop :=
  ∀ s : State, s.status = .running → s.pc ≠ s.params.haltAddr → lookup s.pc.toNat s.code = none →
    step s = .next (s.setStatus (.faulted (.fetchFault s.pc)))

/-- 60_exceptions.md R150 (spec decision D23): at `HALT_ADDR` the run ends and nothing else changes. -/
def Obligations.RunEndsAtHaltAddress : Prop :=
  ∀ s : State, s.status = .running → s.pc = s.params.haltAddr → step s = .next (s.setStatus .halted)

/-- 10_state.md R20 (spec decisions D18, D23): a Halted or Faulted machine has no further step. -/
def Obligations.StoppedMachineHasNoStep : Prop :=
  ∀ s t : State, s.status ≠ .running → step s ≠ .next t

/-- 60_exceptions.md R141 (spec decision D18): a step that ends Faulted changes the status alone. -/
def Obligations.FaultsArePrecise : Prop :=
  ∀ (s t : State) (f : Fault), step s = .next t → t.status = .faulted f →
    t.regs = s.regs ∧ t.flags = s.flags ∧ t.mem = s.mem ∧ t.pc = s.pc ∧ t.code = s.code ∧
    t.labels = s.labels ∧ t.params = s.params ∧ t.draws = s.draws

/-- 20_memory.md R40 (spec decision D4): no step changes the program, the labels or the parameters, so
stores are never seen by fetch. -/
def Obligations.ProgramNeverChanges : Prop :=
  ∀ s t : State, step s = .next t → t.code = s.code ∧ t.labels = s.labels ∧ t.params = s.params

/-- The invariant: memory in canonical form, the parameters and the program as 20_memory.md R32, R41 and
70_reset_and_hazards.md R160 require (log 2, log 6, log 11). Every step keeps it. -/
def Obligations.EveryStepKeepsTheStateWellFormed : Prop :=
  ∀ s t : State, s.wf → step s = .next t → t.wf

/-- The state after reset meets the invariant. -/
def Obligations.ResetIsWellFormed : Prop := State.reset.wf

/-- 30_encoding.md R70, 70_reset_and_hazards.md R160 item 6: a program of well-formed terms never raises
IllFormed, and stays one. -/
def Obligations.WellFormedProgramNeverIllFormed : Prop :=
  ∀ s t : State, s.termsWf → step s = .next t →
    t.termsWf ∧ ∀ r, t.status ≠ .faulted (.illFormed r)

/-- 60_exceptions.md R152 (spec decision D21): apart from Imul, and Shl under `Either`, an instruction does
not depend on the draws. -/
def Obligations.DrawsReachOnlyImulAndShl : Prop :=
  ∀ (i : Instr) (s : State) (n : Nat), ¬ Draws s.params i →
    exec i (s.addDraws n) = moveDraws n (exec i s)

/-! ## Launch and reset -/

/-- 10_state.md R21 (spec decision D22), the values it decides, at the default parameters; the registers
but ESP, the flags and the other memory words hold the model's choices (log 3, log 4, log 5) and are not
stated. -/
def Obligations.ResetHoldsTheDecidedValues : Prop :=
  State.reset.status = .running ∧ State.reset.pc = 0x00001000#32 ∧
  State.reset.reg .esp = 0xFFFFFFFC#32 ∧ readWord State.reset.mem 0xFFFFFFFC#32 = 0#32 ∧
  State.reset.params.memLo = 0xFFFFF000#32 ∧ State.reset.params.memHi = 0xFFFFFFFC#32 ∧
  State.reset.params.haltAddr = 0#32

/-- 70_reset_and_hazards.md R160 (spec decisions D22, D28): for every program and every choice of the
arbitrary values there is a launch state, which holds exactly those values. -/
def Obligations.EveryChoiceIsALaunchState : Prop :=
  ∀ (p : Config.Params) (code : List (Nat × CodeCell)) (labels : List (Nat × Word)) (reg0 : RegFile)
    (flags0 : Flags) (mem0 : Memory),
    p.wf → mem0.wf →
    (State.launch p code labels reg0 flags0 mem0).programWf →
    (State.launch p code labels reg0 flags0 mem0).termsWf →
    (lookup p.entry.toNat code).isSome = true →
    (State.launch p code labels reg0 flags0 mem0).IsLaunch ∧
    (∀ q, q ≠ .esp → (State.launch p code labels reg0 flags0 mem0).reg q = reg0.get q) ∧
    (State.launch p code labels reg0 flags0 mem0).flags = flags0 ∧
    (∀ b : Nat, b < p.espInit.toNat ∨ p.espInit.toNat + 4 ≤ b →
      readByte (State.launch p code labels reg0 flags0 mem0).mem b = readByte mem0 b)

/-- 20_memory.md R41, R42: a program that meets their requirements is well-formed once launched. Every line
of its text stands at its address, followed by the next line's address, or by `last`; each of its labels
resolves to its address, and each data label to its own; at no other address does an instruction stand. -/
def Obligations.LoadedProgramIsWellFormed : Prop :=
  ∀ (p : Config.Params) (q : Program) (reg0 : RegFile) (flags0 : Flags) (mem0 : Memory) (s : State),
    q.wf p → s = State.launch p q.code q.labels reg0 flags0 mem0 →
    s.programWf ∧
    (∀ k ln, q.text[k]? = some ln →
      lookup ln.addr.toNat s.code
        = some { instr := ln.instr, next := (q.text[k + 1]?.map Line.addr).getD q.last } ∧
      ∀ l ∈ ln.labels, s.labelAddr l = some ln.addr) ∧
    (∀ d ∈ q.data, s.labelAddr d.1 = some d.2) ∧
    (∀ a : Word, (∀ ln ∈ q.text, ln.addr ≠ a) → lookup a.toNat s.code = none)

/-- 20_memory.md R41: under the reference layout RL4 instruction k stands at CODE_BASE + 4k, the next
instruction 4 further, and a label attached to it resolves to its address (spec decision D4). -/
def Obligations.ReferenceLayout : Prop :=
  ∀ (p : Config.Params) (lines : List (List Label × Instr)) (data : List (Label × Word)) (k : Nat)
    (labels : List Label) (i : Instr) (a : Word),
    (programRL4 lines data).wf p → lines[k]? = some (labels, i) →
    a = 0x00001000#32 + 4#32 * BitVec.ofNat 32 k →
    lookup a.toNat (programRL4 lines data).code = some { instr := i, next := a + 4#32 } ∧
    ∀ l ∈ labels, lookup l.val (programRL4 lines data).labels = some a

/-! ## The serialisation of terms (log 1) -/

/-- Every term whose shape is well-formed reads back from its encoding, whatever bytes follow. -/
def Obligations.DecodeOfEncodeIsTheTerm : Prop :=
  ∀ i : Instr, i.shapeReason = none →
    ∃ bs, encode i = some bs ∧ ∀ rest, decode (bs ++ rest) = .ok (i, rest)

/-- What the decoder reads has a well-formed shape and is the encoding of what it answers: no two byte
strings spell one term. -/
def Obligations.DecodedBytesAreTheEncoding : Prop :=
  ∀ (bs rest : List Byte) (i : Instr), decode bs = .ok (i, rest) →
    i.shapeReason = none ∧ ∃ e, encode i = some e ∧ bs = e ++ rest

/-- 30_encoding.md R52 (spec decision D1), R70 reason 11: tags other than 1 to 21 and condition-code numbers
other than 1 to 8 spell no instruction. -/
def Obligations.UnassignedNumbersRefused : Prop :=
  (∀ (b : Byte) (rest : List Byte), b.toNat = 0 ∨ 21 < b.toNat →
    decode (b :: rest) = .error (.illFormed .badNumber)) ∧
  (∀ (b : Byte) (rest : List Byte), 8 ≤ b.toNat →
    decode (12#8 :: b :: rest) = .error (.illFormed .badNumber) ∧
    decode (21#8 :: b :: rest) = .error (.illFormed .badNumber))

/-- A few terms, one per family, written out by hand in the serialisation of log 1. -/
def Obligations.SampleTermsDecode : Prop :=
  decode [0x02#8, 0x00#8, 0x01#8, 0x00#8, 0x00#8, 0x00#8, 0x00#8, 0x00#8]
    = .ok (.add (.imm 1#32) (.reg .eax), []) ∧
  decode [0x08#8, 0x02#8, 0x01#8, 0x00#8, 0x00#8] = .ok (.xor (.reg .ebx) (.reg .eax), []) ∧
  decode [0x0C#8, 0x04#8, 0x00#8, 0x02#8] = .ok (.setb .slt (.reg .ecx), []) ∧
  decode [0x10#8, 0x01#8, 0x05#8, 0x05#8, 0x04#8, 0x00#8, 0x00#8, 0x00#8]
    = .ok (.pop (.ind { base := some .edi, index := none, disp := some (.word 4#32) }), []) ∧
  decode [0x15#8, 0x07#8, 0x2A#8, 0x00#8, 0x00#8, 0x00#8] = .ok (.j .sgt (.lbl 42), [])
end

