-- ==== Sys2Proof/Laws/State.lean ====
section
/-! SUPPORT. The small laws of State: what each update does to each field, each true by rfl, so that no
proof unfolds a record update; and the laws of the register file. -/

namespace Sys2Proof.Machine

/-! ## Register file -/

@[simp] theorem RegFile.get_set_same (f : RegFile) (r : Reg) (v : Word) : (f.set r v).get r = v := by
  cases r <;> rfl

theorem RegFile.get_set_other (f : RegFile) (r q : Reg) (v : Word) (h : q ≠ r) :
    (f.set r v).get q = f.get q := by
  cases r <;> cases q <;> first | rfl | exact absurd rfl h

/-- Two register files with the same contents are the same. -/
theorem RegFile.ext_get (f g : RegFile) (h : ∀ r, f.get r = g.get r) : f = g := by
  cases f; cases g
  simp only [RegFile.mk.injEq]
  exact ⟨h .eax, h .ebx, h .ecx, h .edx, h .esi, h .edi, h .ebp, h .esp⟩

/-! ## Fields after each update -/

@[simp] theorem State.setReg_regs (s : State) (r : Reg) (v : Word) : (s.setReg r v).regs = s.regs.set r v := rfl
@[simp] theorem State.setReg_pc (s : State) (r : Reg) (v : Word) : (s.setReg r v).pc = s.pc := rfl
@[simp] theorem State.setReg_flags (s : State) (r : Reg) (v : Word) : (s.setReg r v).flags = s.flags := rfl
@[simp] theorem State.setReg_mem (s : State) (r : Reg) (v : Word) : (s.setReg r v).mem = s.mem := rfl
@[simp] theorem State.setReg_status (s : State) (r : Reg) (v : Word) : (s.setReg r v).status = s.status := rfl
@[simp] theorem State.setReg_code (s : State) (r : Reg) (v : Word) : (s.setReg r v).code = s.code := rfl
@[simp] theorem State.setReg_labels (s : State) (r : Reg) (v : Word) : (s.setReg r v).labels = s.labels := rfl
@[simp] theorem State.setReg_params (s : State) (r : Reg) (v : Word) : (s.setReg r v).params = s.params := rfl
@[simp] theorem State.setReg_draws (s : State) (r : Reg) (v : Word) : (s.setReg r v).draws = s.draws := rfl

@[simp] theorem State.setFlags_regs (s : State) (f : Flags) : (s.setFlags f).regs = s.regs := rfl
@[simp] theorem State.setFlags_pc (s : State) (f : Flags) : (s.setFlags f).pc = s.pc := rfl
@[simp] theorem State.setFlags_flags (s : State) (f : Flags) : (s.setFlags f).flags = f := rfl
@[simp] theorem State.setFlags_mem (s : State) (f : Flags) : (s.setFlags f).mem = s.mem := rfl
@[simp] theorem State.setFlags_status (s : State) (f : Flags) : (s.setFlags f).status = s.status := rfl
@[simp] theorem State.setFlags_code (s : State) (f : Flags) : (s.setFlags f).code = s.code := rfl
@[simp] theorem State.setFlags_labels (s : State) (f : Flags) : (s.setFlags f).labels = s.labels := rfl
@[simp] theorem State.setFlags_params (s : State) (f : Flags) : (s.setFlags f).params = s.params := rfl
@[simp] theorem State.setFlags_draws (s : State) (f : Flags) : (s.setFlags f).draws = s.draws := rfl
@[simp] theorem State.setFlags_reg (s : State) (f : Flags) (q : Reg) : (s.setFlags f).reg q = s.reg q := rfl

@[simp] theorem State.setPc_regs (s : State) (a : Word) : (s.setPc a).regs = s.regs := rfl
@[simp] theorem State.setPc_pc (s : State) (a : Word) : (s.setPc a).pc = a := rfl
@[simp] theorem State.setPc_flags (s : State) (a : Word) : (s.setPc a).flags = s.flags := rfl
@[simp] theorem State.setPc_mem (s : State) (a : Word) : (s.setPc a).mem = s.mem := rfl
@[simp] theorem State.setPc_status (s : State) (a : Word) : (s.setPc a).status = s.status := rfl
@[simp] theorem State.setPc_code (s : State) (a : Word) : (s.setPc a).code = s.code := rfl
@[simp] theorem State.setPc_labels (s : State) (a : Word) : (s.setPc a).labels = s.labels := rfl
@[simp] theorem State.setPc_params (s : State) (a : Word) : (s.setPc a).params = s.params := rfl
@[simp] theorem State.setPc_draws (s : State) (a : Word) : (s.setPc a).draws = s.draws := rfl
@[simp] theorem State.setPc_reg (s : State) (a : Word) (q : Reg) : (s.setPc a).reg q = s.reg q := rfl

@[simp] theorem State.setMem_regs (s : State) (m : Memory) : (s.setMem m).regs = s.regs := rfl
@[simp] theorem State.setMem_pc (s : State) (m : Memory) : (s.setMem m).pc = s.pc := rfl
@[simp] theorem State.setMem_flags (s : State) (m : Memory) : (s.setMem m).flags = s.flags := rfl
@[simp] theorem State.setMem_mem (s : State) (m : Memory) : (s.setMem m).mem = m := rfl
@[simp] theorem State.setMem_status (s : State) (m : Memory) : (s.setMem m).status = s.status := rfl
@[simp] theorem State.setMem_code (s : State) (m : Memory) : (s.setMem m).code = s.code := rfl
@[simp] theorem State.setMem_labels (s : State) (m : Memory) : (s.setMem m).labels = s.labels := rfl
@[simp] theorem State.setMem_params (s : State) (m : Memory) : (s.setMem m).params = s.params := rfl
@[simp] theorem State.setMem_draws (s : State) (m : Memory) : (s.setMem m).draws = s.draws := rfl
@[simp] theorem State.setMem_reg (s : State) (m : Memory) (q : Reg) : (s.setMem m).reg q = s.reg q := rfl

@[simp] theorem State.setStatus_regs (s : State) (u : Status) : (s.setStatus u).regs = s.regs := rfl
@[simp] theorem State.setStatus_pc (s : State) (u : Status) : (s.setStatus u).pc = s.pc := rfl
@[simp] theorem State.setStatus_flags (s : State) (u : Status) : (s.setStatus u).flags = s.flags := rfl
@[simp] theorem State.setStatus_mem (s : State) (u : Status) : (s.setStatus u).mem = s.mem := rfl
@[simp] theorem State.setStatus_status (s : State) (u : Status) : (s.setStatus u).status = u := rfl
@[simp] theorem State.setStatus_code (s : State) (u : Status) : (s.setStatus u).code = s.code := rfl
@[simp] theorem State.setStatus_labels (s : State) (u : Status) : (s.setStatus u).labels = s.labels := rfl
@[simp] theorem State.setStatus_params (s : State) (u : Status) : (s.setStatus u).params = s.params := rfl
@[simp] theorem State.setStatus_draws (s : State) (u : Status) : (s.setStatus u).draws = s.draws := rfl
@[simp] theorem State.setStatus_reg (s : State) (u : Status) (q : Reg) : (s.setStatus u).reg q = s.reg q := rfl

@[simp] theorem State.addDraws_regs (s : State) (n : Nat) : (s.addDraws n).regs = s.regs := rfl
@[simp] theorem State.addDraws_pc (s : State) (n : Nat) : (s.addDraws n).pc = s.pc := rfl
@[simp] theorem State.addDraws_flags (s : State) (n : Nat) : (s.addDraws n).flags = s.flags := rfl
@[simp] theorem State.addDraws_mem (s : State) (n : Nat) : (s.addDraws n).mem = s.mem := rfl
@[simp] theorem State.addDraws_status (s : State) (n : Nat) : (s.addDraws n).status = s.status := rfl
@[simp] theorem State.addDraws_code (s : State) (n : Nat) : (s.addDraws n).code = s.code := rfl
@[simp] theorem State.addDraws_labels (s : State) (n : Nat) : (s.addDraws n).labels = s.labels := rfl
@[simp] theorem State.addDraws_params (s : State) (n : Nat) : (s.addDraws n).params = s.params := rfl
@[simp] theorem State.addDraws_draws (s : State) (n : Nat) : (s.addDraws n).draws = s.draws + n := rfl
@[simp] theorem State.addDraws_reg (s : State) (n : Nat) (q : Reg) : (s.addDraws n).reg q = s.reg q := rfl

@[simp] theorem State.setReg_reg_same (s : State) (r : Reg) (v : Word) : (s.setReg r v).reg r = v :=
  RegFile.get_set_same s.regs r v

theorem State.setReg_reg_other (s : State) (r q : Reg) (v : Word) (h : q ≠ r) :
    (s.setReg r v).reg q = s.reg q := RegFile.get_set_other s.regs r q v h

/-! ## What depends on the code, the labels and EIP only -/

theorem State.fetched_eq (s t : State) (hp : t.pc = s.pc) (hc : t.code = s.code) :
    t.fetched = s.fetched := by unfold State.fetched; rw [hp, hc]

theorem State.nextPc_eq (s t : State) (hp : t.pc = s.pc) (hc : t.code = s.code) :
    t.nextPc = s.nextPc := by
  unfold State.nextPc; rw [State.fetched_eq s t hp hc, hp]

theorem State.labelAddr_eq (s t : State) (h : t.labels = s.labels) : t.labelAddr = s.labelAddr := by
  funext l; unfold State.labelAddr; rw [h]

theorem illFormed_eq (s t : State) (hl : t.labels = s.labels) (hp : t.params = s.params) (i : Instr) :
    illFormed t i = illFormed s i := by
  have hr : t.resolved = s.resolved := by
    funext l; unfold State.resolved; rw [State.labelAddr_eq s t hl]
  unfold illFormed; rw [hr, hp]

/-! ## Advance, faults, the end of a run -/

@[simp] theorem advance_regs (s t : State) : (advance s t).regs = t.regs := rfl
@[simp] theorem advance_pc (s t : State) : (advance s t).pc = s.nextPc := rfl
@[simp] theorem advance_flags (s t : State) : (advance s t).flags = t.flags := rfl
@[simp] theorem advance_mem (s t : State) : (advance s t).mem = t.mem := rfl
@[simp] theorem advance_status (s t : State) : (advance s t).status = t.status := rfl
@[simp] theorem advance_code (s t : State) : (advance s t).code = t.code := rfl
@[simp] theorem advance_labels (s t : State) : (advance s t).labels = t.labels := rfl
@[simp] theorem advance_params (s t : State) : (advance s t).params = t.params := rfl
@[simp] theorem advance_draws (s t : State) : (advance s t).draws = t.draws := rfl
@[simp] theorem advance_reg (s t : State) (q : Reg) : (advance s t).reg q = t.reg q := rfl

@[simp] theorem takeFault_regs (f : Fault) (t : State) : (takeFault f t).regs = t.regs := rfl
@[simp] theorem takeFault_pc (f : Fault) (t : State) : (takeFault f t).pc = t.pc := rfl
@[simp] theorem takeFault_flags (f : Fault) (t : State) : (takeFault f t).flags = t.flags := rfl
@[simp] theorem takeFault_mem (f : Fault) (t : State) : (takeFault f t).mem = t.mem := rfl
@[simp] theorem takeFault_status (f : Fault) (t : State) : (takeFault f t).status = .faulted f := rfl
@[simp] theorem takeFault_code (f : Fault) (t : State) : (takeFault f t).code = t.code := rfl
@[simp] theorem takeFault_labels (f : Fault) (t : State) : (takeFault f t).labels = t.labels := rfl
@[simp] theorem takeFault_params (f : Fault) (t : State) : (takeFault f t).params = t.params := rfl
@[simp] theorem takeFault_draws (f : Fault) (t : State) : (takeFault f t).draws = t.draws := rfl
@[simp] theorem takeFault_reg (f : Fault) (t : State) (q : Reg) : (takeFault f t).reg q = t.reg q := rfl

@[simp] theorem haltRun_regs (t : State) : (haltRun t).regs = t.regs := rfl
@[simp] theorem haltRun_pc (t : State) : (haltRun t).pc = t.pc := rfl
@[simp] theorem haltRun_flags (t : State) : (haltRun t).flags = t.flags := rfl
@[simp] theorem haltRun_mem (t : State) : (haltRun t).mem = t.mem := rfl
@[simp] theorem haltRun_status (t : State) : (haltRun t).status = .halted := rfl
@[simp] theorem haltRun_code (t : State) : (haltRun t).code = t.code := rfl
@[simp] theorem haltRun_labels (t : State) : (haltRun t).labels = t.labels := rfl
@[simp] theorem haltRun_params (t : State) : (haltRun t).params = t.params := rfl
@[simp] theorem haltRun_draws (t : State) : (haltRun t).draws = t.draws := rfl
@[simp] theorem haltRun_reg (t : State) (q : Reg) : (haltRun t).reg q = t.reg q := rfl

@[simp] theorem espUp_regs (t : State) : (espUp t).regs = t.regs.set .esp (t.reg .esp + 4#32) := rfl
@[simp] theorem espUp_pc (t : State) : (espUp t).pc = t.pc := rfl
@[simp] theorem espUp_flags (t : State) : (espUp t).flags = t.flags := rfl
@[simp] theorem espUp_mem (t : State) : (espUp t).mem = t.mem := rfl
@[simp] theorem espUp_status (t : State) : (espUp t).status = t.status := rfl
@[simp] theorem espUp_code (t : State) : (espUp t).code = t.code := rfl
@[simp] theorem espUp_labels (t : State) : (espUp t).labels = t.labels := rfl
@[simp] theorem espUp_params (t : State) : (espUp t).params = t.params := rfl
@[simp] theorem espUp_draws (t : State) : (espUp t).draws = t.draws := rfl
@[simp] theorem espUp_esp (t : State) : (espUp t).reg .esp = t.reg .esp + 4#32 :=
  State.setReg_reg_same t .esp _
theorem espUp_reg_other (t : State) (q : Reg) (h : q ≠ .esp) : (espUp t).reg q = t.reg q :=
  State.setReg_reg_other t .esp q _ h

@[simp] theorem espDown_regs (t : State) : (espDown t).regs = t.regs.set .esp (pushSlot t) := rfl
@[simp] theorem espDown_pc (t : State) : (espDown t).pc = t.pc := rfl
@[simp] theorem espDown_flags (t : State) : (espDown t).flags = t.flags := rfl
@[simp] theorem espDown_mem (t : State) : (espDown t).mem = t.mem := rfl
@[simp] theorem espDown_status (t : State) : (espDown t).status = t.status := rfl
@[simp] theorem espDown_code (t : State) : (espDown t).code = t.code := rfl
@[simp] theorem espDown_labels (t : State) : (espDown t).labels = t.labels := rfl
@[simp] theorem espDown_params (t : State) : (espDown t).params = t.params := rfl
@[simp] theorem espDown_draws (t : State) : (espDown t).draws = t.draws := rfl
@[simp] theorem espDown_esp (t : State) : (espDown t).reg .esp = pushSlot t :=
  State.setReg_reg_same t .esp _
theorem espDown_reg_other (t : State) (q : Reg) (h : q ≠ .esp) : (espDown t).reg q = t.reg q :=
  State.setReg_reg_other t .esp q _ h

end Sys2Proof.Machine
end

