-- ==== Sys2Proof/Laws/Memory.lean ====
section
/-! SUPPORT. Partial maps as sorted lists, and memory: read after write, every operation keeps the
canonical form, and equal memories are equal data. -/

namespace Sys2Proof.Machine

variable {α : Type}

/-! ## Lookup after insert and erase, on any list -/

@[simp] theorem lookup_insert_same (k : Nat) (v : α) (l : List (Nat × α)) :
    lookup k (insert k v l) = some v := by
  induction l with
  | nil => simp [insert, lookup]
  | cons p rest ih =>
    obtain ⟨j, w⟩ := p
    by_cases h1 : k < j
    · simp [insert, lookup, h1]
    · by_cases h2 : j = k
      · simp [insert, lookup, h2]
      · simp [insert, lookup, h1, h2, ih]

theorem lookup_insert_other (k j : Nat) (v : α) (l : List (Nat × α)) (h : j ≠ k) :
    lookup j (insert k v l) = lookup j l := by
  induction l with
  | nil => simp [insert, lookup, Ne.symm h]
  | cons p rest ih =>
    obtain ⟨i, w⟩ := p
    by_cases h1 : k < i
    · simp [insert, lookup, h1, Ne.symm h]
    · by_cases h2 : i = k
      · subst h2; simp [insert, lookup, Ne.symm h]
      · simp [insert, lookup, h1, h2, ih]

@[simp] theorem lookup_erase_same (k : Nat) (l : List (Nat × α)) : lookup k (erase k l) = none := by
  induction l with
  | nil => rfl
  | cons p rest ih =>
    obtain ⟨j, w⟩ := p
    by_cases h : j = k
    · simpa [erase, h] using ih
    · simpa [erase, lookup, h] using ih

theorem lookup_erase_other (k j : Nat) (l : List (Nat × α)) (h : j ≠ k) :
    lookup j (erase k l) = lookup j l := by
  induction l with
  | nil => rfl
  | cons p rest ih =>
    obtain ⟨i, w⟩ := p
    by_cases h2 : i = k
    · subst h2; simpa [erase, lookup, Ne.symm h] using ih
    · by_cases h3 : i = j
      · simp [erase, lookup, h3, h]
      · simpa [erase, lookup, h2, h3] using ih

/-- An entry found is an entry of the list. -/
theorem mem_of_lookup (k : Nat) (v : α) (l : List (Nat × α)) (h : lookup k l = some v) : (k, v) ∈ l := by
  induction l with
  | nil => cases h
  | cons p rest ih =>
    obtain ⟨j, w⟩ := p
    by_cases h2 : j = k
    · simp only [lookup, h2, if_true, Option.some.injEq] at h
      subst h2; subst h; exact List.mem_cons_self
    · simp only [lookup, h2, if_false] at h
      exact List.mem_cons_of_mem _ (ih h)

theorem lookup_none_of_lt (k : Nat) (l : List (Nat × α)) (h : ∀ p ∈ l, k < p.1) : lookup k l = none := by
  induction l with
  | nil => rfl
  | cons p rest ih =>
    obtain ⟨j, w⟩ := p
    have hj : k < j := h (j, w) List.mem_cons_self
    have : j ≠ k := by omega
    simp only [lookup, this, if_false]
    exact ih fun q hq => h q (List.mem_cons_of_mem _ hq)

/-- In a rising list an entry is found. -/
theorem lookup_of_mem (k : Nat) (v : α) (l : List (Nat × α)) (hr : Rising l) (h : (k, v) ∈ l) :
    lookup k l = some v := by
  induction l with
  | nil => cases h
  | cons p rest ih =>
    obtain ⟨j, w⟩ := p
    rcases List.mem_cons.mp h with heq | hin
    · cases heq; simp [lookup]
    · have hj := List.rel_of_pairwise_cons hr hin
      have : j ≠ k := Nat.ne_of_lt hj
      simp only [lookup, this, if_false]
      exact ih (List.Pairwise.of_cons hr) hin

/-! ## Insert and erase keep the keys rising -/

theorem mem_insert (k : Nat) (v : α) (l : List (Nat × α)) (p : Nat × α) (h : p ∈ insert k v l) :
    p = (k, v) ∨ p ∈ l := by
  induction l with
  | nil => exact .inl (List.mem_singleton.mp h)
  | cons q rest ih =>
    obtain ⟨j, w⟩ := q
    by_cases h1 : k < j
    · rw [insert, if_pos h1] at h
      exact List.mem_cons.mp h
    · by_cases h2 : j = k
      · rw [insert, if_neg h1, if_pos h2] at h
        rcases List.mem_cons.mp h with e | e
        · exact .inl e
        · exact .inr (List.mem_cons_of_mem _ e)
      · rw [insert, if_neg h1, if_neg h2] at h
        rcases List.mem_cons.mp h with e | e
        · exact .inr (e ▸ List.mem_cons_self)
        · rcases ih e with e | e
          · exact .inl e
          · exact .inr (List.mem_cons_of_mem _ e)

theorem insert_rising (k : Nat) (v : α) (l : List (Nat × α)) (hr : Rising l) : Rising (insert k v l) := by
  induction l with
  | nil => exact List.pairwise_singleton _ _
  | cons q rest ih =>
    obtain ⟨j, w⟩ := q
    have hrest := List.Pairwise.of_cons hr
    by_cases h1 : k < j
    · rw [insert, if_pos h1]
      refine List.pairwise_cons.mpr ⟨fun p hp => ?_, hr⟩
      rcases List.mem_cons.mp hp with e | e
      · exact e ▸ h1
      · exact Nat.lt_trans h1 (List.rel_of_pairwise_cons hr e)
    · by_cases h2 : j = k
      · rw [insert, if_neg h1, if_pos h2]
        exact List.pairwise_cons.mpr ⟨fun p hp => h2 ▸ List.rel_of_pairwise_cons hr hp, hrest⟩
      · rw [insert, if_neg h1, if_neg h2]
        refine List.pairwise_cons.mpr ⟨fun p hp => ?_, ih hrest⟩
        rcases mem_insert k v rest p hp with e | e
        · subst e; show j < k; omega
        · exact List.rel_of_pairwise_cons hr e

theorem erase_rising (k : Nat) (l : List (Nat × α)) (hr : Rising l) : Rising (erase k l) :=
  List.Pairwise.filter _ hr

/-- Rising lists with the same lookups are equal. -/
theorem rising_ext (l m : List (Nat × α)) (hl : Rising l) (hm : Rising m)
    (h : ∀ k, lookup k l = lookup k m) : l = m := by
  induction l generalizing m with
  | nil =>
    cases m with
    | nil => rfl
    | cons q rest => obtain ⟨j, w⟩ := q; have := h j; simp [lookup] at this
  | cons p restl ih =>
    obtain ⟨i, v⟩ := p
    cases m with
    | nil => have := h i; simp [lookup] at this
    | cons q restm =>
      obtain ⟨j, w⟩ := q
      have hil := fun p hp => List.rel_of_pairwise_cons hl (a' := p) hp
      have hjm := fun p hp => List.rel_of_pairwise_cons hm (a' := p) hp
      have hij : i = j := by
        rcases Nat.lt_trichotomy i j with hlt | heq | hgt
        · have hn : lookup i ((j, w) :: restm) = none := lookup_none_of_lt i _ fun p hp => by
            rcases List.mem_cons.mp hp with e | e
            · exact e ▸ hlt
            · exact Nat.lt_trans hlt (hjm p e)
          have := h i; rw [hn] at this; simp [lookup] at this
        · exact heq
        · have hn : lookup j ((i, v) :: restl) = none := lookup_none_of_lt j _ fun p hp => by
            rcases List.mem_cons.mp hp with e | e
            · exact e ▸ hgt
            · exact Nat.lt_trans hgt (hil p e)
          have := h j; rw [hn] at this; simp [lookup] at this
      subst hij
      have hvw : v = w := by have := h i; simpa [lookup] using this
      subst hvw
      rw [ih restm (List.Pairwise.of_cons hl) (List.Pairwise.of_cons hm) fun k => ?_]
      by_cases hk : i = k
      · subst hk
        rw [lookup_none_of_lt i restl hil, lookup_none_of_lt i restm hjm]
      · have := h k; simpa [lookup, hk] using this

/-! ## Bytes -/

@[simp] theorem readByte_writeByte_same (m : Memory) (a : Nat) (b : Byte) :
    readByte (writeByte m a b) a = b := by
  by_cases h : b = Config.unlistedByte
  · simp [readByte, writeByte, h]
  · simp [readByte, writeByte, h]

theorem readByte_writeByte_other (m : Memory) (a c : Nat) (b : Byte) (h : c ≠ a) :
    readByte (writeByte m a b) c = readByte m c := by
  by_cases hb : b = Config.unlistedByte
  · simp [readByte, writeByte, hb, lookup_erase_other a c m h]
  · simp [readByte, writeByte, hb, lookup_insert_other a c b m h]

theorem writeByte_wf (m : Memory) (a : Nat) (b : Byte) (ha : a < 4294967296) (hm : m.wf) :
    Memory.wf (writeByte m a b) := by
  unfold writeByte
  by_cases hb : b = Config.unlistedByte
  · rw [if_pos hb]
    exact ⟨erase_rising a m hm.1, fun c hc => hm.2 c (List.mem_of_mem_filter hc)⟩
  · rw [if_neg hb]
    refine ⟨insert_rising a b m hm.1, fun c hc => ?_⟩
    rcases mem_insert a b m c hc with e | e
    · subst e; exact ⟨ha, hb⟩
    · exact hm.2 c e

/-- Canonical memories with the same bytes are equal data. -/
theorem Memory.ext_read (m n : Memory) (hm : m.wf) (hn : n.wf) (h : ∀ a, readByte m a = readByte n a) :
    m = n := by
  refine rising_ext m n hm.1 hn.1 fun k => ?_
  have hk := h k
  unfold readByte at hk
  cases hl : lookup k m with
  | none =>
    cases hr : lookup k n with
    | none => rfl
    | some w =>
      rw [hl, hr] at hk
      exact absurd hk.symm (hn.2 _ (mem_of_lookup k w n hr)).2
  | some v =>
    cases hr : lookup k n with
    | none =>
      rw [hl, hr] at hk
      exact absurd hk (hm.2 _ (mem_of_lookup k v m hl)).2
    | some w => rw [hl, hr] at hk; simpa using hk

/-! ## Words -/

theorem readByte_writeWord_other (m : Memory) (a v : Word) (c : Nat)
    (h : c < a.toNat ∨ a.toNat + 4 ≤ c) : readByte (writeWord m a v) c = readByte m c := by
  unfold writeWord
  rw [readByte_writeByte_other _ _ _ _ (by omega), readByte_writeByte_other _ _ _ _ (by omega),
    readByte_writeByte_other _ _ _ _ (by omega), readByte_writeByte_other _ _ _ _ (by omega)]

theorem split_word (v : Word) :
    v.extractLsb' 24 8 ++ v.extractLsb' 16 8 ++ v.extractLsb' 8 8 ++ v.extractLsb' 0 8 = v := by
  apply BitVec.eq_of_getLsbD_eq
  intro i hi
  simp only [BitVec.getLsbD_append, BitVec.getLsbD_extractLsb']
  by_cases h1 : i < 8
  · simp [h1]
  · by_cases h2 : i < 16
    · simp [h1, show i - 8 < 8 by omega, show 8 + (i - 8) = i by omega]
    · by_cases h3 : i < 24
      · simp [h1, show ¬ i - 8 < 8 by omega, show i - 8 - 8 < 8 by omega,
          show 16 + (i - 8 - 8) = i by omega]
      · simp [h1, show ¬ i - 8 < 8 by omega, show ¬ i - 8 - 8 < 8 by omega,
          show i - 8 - 8 - 8 < 8 by omega, show 24 + (i - 8 - 8 - 8) = i by omega]

@[simp] theorem readWord_writeWord_same (m : Memory) (a v : Word) : readWord (writeWord m a v) a = v := by
  have h3 : readByte (writeWord m a v) (a.toNat + 3) = v.extractLsb' 24 8 := by
    unfold writeWord; rw [readByte_writeByte_same]
  have h2 : readByte (writeWord m a v) (a.toNat + 2) = v.extractLsb' 16 8 := by
    unfold writeWord; rw [readByte_writeByte_other _ _ _ _ (by omega), readByte_writeByte_same]
  have h1 : readByte (writeWord m a v) (a.toNat + 1) = v.extractLsb' 8 8 := by
    unfold writeWord
    rw [readByte_writeByte_other _ _ _ _ (by omega), readByte_writeByte_other _ _ _ _ (by omega),
      readByte_writeByte_same]
  have h0 : readByte (writeWord m a v) a.toNat = v.extractLsb' 0 8 := by
    unfold writeWord
    rw [readByte_writeByte_other _ _ _ _ (by omega), readByte_writeByte_other _ _ _ _ (by omega),
      readByte_writeByte_other _ _ _ _ (by omega), readByte_writeByte_same]
  unfold readWord
  rw [h0, h1, h2, h3, split_word]

theorem readWord_writeWord_other (m : Memory) (a c v : Word)
    (h : c.toNat + 4 ≤ a.toNat ∨ a.toNat + 4 ≤ c.toNat) :
    readWord (writeWord m a v) c = readWord m c := by
  unfold readWord
  rw [readByte_writeWord_other _ _ _ _ (by omega), readByte_writeWord_other _ _ _ _ (by omega),
    readByte_writeWord_other _ _ _ _ (by omega), readByte_writeWord_other _ _ _ _ (by omega)]

theorem writeWord_wf (m : Memory) (a v : Word) (ha : a.toNat % 4 = 0) (hm : m.wf) :
    Memory.wf (writeWord m a v) := by
  have hlt := a.isLt
  unfold writeWord
  exact writeByte_wf _ _ _ (by omega) (writeByte_wf _ _ _ (by omega)
    (writeByte_wf _ _ _ (by omega) (writeByte_wf _ _ _ (by omega) hm)))

/-- Two valid addresses are equal or their words are disjoint. -/
theorem validAddr_disjoint (p : Config.Params) (a c : Word) (ha : validAddr p a = true)
    (hc : validAddr p c = true) (h : a ≠ c) :
    c.toNat + 4 ≤ a.toNat ∨ a.toNat + 4 ≤ c.toNat := by
  simp only [validAddr, Bool.and_eq_true, decide_eq_true_eq] at ha hc
  have : a.toNat ≠ c.toNat := fun e => h (BitVec.eq_of_toNat_eq e)
  omega

theorem validAddr_aligned (p : Config.Params) (a : Word) (h : validAddr p a = true) :
    a.toNat % 4 = 0 := by
  simp only [validAddr, Bool.and_eq_true, decide_eq_true_eq] at h
  exact h.1.1

theorem reset_mem_wf : State.reset.mem.wf := by decide

end Sys2Proof.Machine
end

