-- ==== Sys2Proof/Laws/Operands.lean ====
section
/-! SUPPORT. What each shared operation over operands can do, said once: `runTerm`, `memRead`, `memWrite`,
`value`, `store`, `combine`, `shift`. Later proofs cite these and do not unfold the operations. -/

namespace Sys2Proof.Machine

/-! ## The frame of a meaning -/

/-- A sequence of two fallible computations answers exactly when both do. -/
theorem bind_ok {α β : Type} {x : Except Fault α} {f : α → Except Fault β} {b : β} :
    (x >>= f) = .ok b ↔ ∃ a, x = .ok a ∧ f a = .ok b := by
  cases x with
  | error e => exact ⟨nofun, fun ⟨_, h, _⟩ => nomatch h⟩
  | ok a => exact ⟨fun h => ⟨a, rfl, h⟩, fun ⟨a', h, hf⟩ => by cases h; exact hf⟩

@[simp] theorem ok_bind {α β : Type} (a : α) (f : α → Except Fault β) :
    ((.ok a : Except Fault α) >>= f) = f a := rfl

@[simp] theorem error_bind {α β : Type} (e : Fault) (f : α → Except Fault β) :
    ((.error e : Except Fault α) >>= f) = .error e := rfl

theorem runTerm_illFormed (s : State) (i : Instr) (b : Except Fault State) (r : IllFormedReason)
    (h : illFormed s i = some r) : runTerm s i b = .fault (.illFormed r) := by
  unfold runTerm; rw [h]

theorem runTerm_ok (s : State) (i : Instr) (b : Except Fault State) (t : State)
    (h : illFormed s i = none) (hb : b = .ok t) : runTerm s i b = .next t := by
  unfold runTerm; rw [h, hb]

theorem runTerm_error (s : State) (i : Instr) (b : Except Fault State) (f : Fault)
    (h : illFormed s i = none) (hb : b = .error f) : runTerm s i b = .fault f := by
  unfold runTerm; rw [h, hb]

/-- A meaning answers a next state exactly when its term is well-formed and its body answers. -/
theorem runTerm_next (s : State) (i : Instr) (b : Except Fault State) (t : State) :
    runTerm s i b = .next t ↔ illFormed s i = none ∧ b = .ok t := by
  constructor
  · intro h
    unfold runTerm at h
    cases hi : illFormed s i with
    | some r => rw [hi] at h; cases h
    | none =>
      rw [hi] at h
      cases b with
      | error f => cases h
      | ok u => cases h; exact ⟨rfl, rfl⟩
  · exact fun ⟨h, hb⟩ => runTerm_ok s i b t h hb

/-- A meaning never refuses. -/
theorem runTerm_not_refused (s : State) (i : Instr) (b : Except Fault State) (r : Refusal) :
    runTerm s i b ≠ .refused r := by
  unfold runTerm
  cases illFormed s i with
  | some q => nofun
  | none => cases b <;> nofun

/-! ## Memory accesses -/

theorem memRead_ok (s : State) (a v : Word) :
    memRead s a = .ok v ↔ validAddr s.params a = true ∧ v = readWord s.mem a := by
  unfold memRead
  cases validAddr s.params a with
  | false => exact ⟨nofun, fun h => nomatch h.1⟩
  | true => exact ⟨fun h => by cases h; exact ⟨rfl, rfl⟩, fun h => by rw [h.2]; rfl⟩

theorem memRead_error (s : State) (a : Word) (f : Fault) :
    memRead s a = .error f ↔ validAddr s.params a = false ∧ f = .memFault a := by
  unfold memRead
  cases validAddr s.params a with
  | true => exact ⟨nofun, fun h => nomatch h.1⟩
  | false => exact ⟨fun h => by cases h; exact ⟨rfl, rfl⟩, fun h => by rw [h.2]; rfl⟩

theorem memWrite_ok (s t : State) (a v : Word) :
    memWrite s a v = .ok t ↔ validAddr s.params a = true ∧ t = s.setMem (writeWord s.mem a v) := by
  unfold memWrite
  cases validAddr s.params a with
  | false => exact ⟨nofun, fun h => nomatch h.1⟩
  | true => exact ⟨fun h => by cases h; exact ⟨rfl, rfl⟩, fun h => by rw [h.2]; rfl⟩

theorem memWrite_error (s : State) (a v : Word) (f : Fault) :
    memWrite s a v = .error f ↔ validAddr s.params a = false ∧ f = .memFault a := by
  unfold memWrite
  cases validAddr s.params a with
  | true => exact ⟨nofun, fun h => nomatch h.1⟩
  | false => exact ⟨fun h => by cases h; exact ⟨rfl, rfl⟩, fun h => by rw [h.2]; rfl⟩

/-! ## Values and locations -/

@[simp] theorem value_imm (s : State) (i : Word) : value s (.imm i) = .ok i := rfl

@[simp] theorem value_reg (s : State) (r : Reg) : value s (.reg r) = .ok (s.reg r) := rfl

theorem value_lbl (s : State) (l : Label) (a : Word) (h : s.labelAddr l = some a) :
    value s (.lbl l) = .ok a := by simp only [value, h]

theorem value_ind (s : State) (m : Ind) (a : Word) (h : effAddr s m = .ok a) :
    value s (.ind m) = memRead s a := by simp only [value, h, ok_bind]

@[simp] theorem store_reg (s : State) (r : Reg) (v : Word) : store s (.reg r) v = .ok (s.setReg r v) := rfl

theorem store_ind (s : State) (m : Ind) (a v : Word) (h : effAddr s m = .ok a) :
    store s (.ind m) v = memWrite s a v := by simp only [store, h, ok_bind]

/-- Everything `store` can do: a register, or a word of memory at a valid address. -/
theorem store_cases (s t : State) (o : Operand) (v : Word) (h : store s o v = .ok t) :
    (∃ r, o = .reg r ∧ t = s.setReg r v) ∨
    (∃ m a, o = .ind m ∧ effAddr s m = .ok a ∧ validAddr s.params a = true ∧
      t = s.setMem (writeWord s.mem a v)) := by
  cases o with
  | imm i => cases h
  | lbl l => cases h
  | reg r => cases h; exact .inl ⟨r, rfl, rfl⟩
  | ind m =>
    obtain ⟨a, ha, hw⟩ := bind_ok.mp h
    obtain ⟨hv, ht⟩ := (memWrite_ok s t a v).mp hw
    exact .inr ⟨m, a, rfl, ha, hv, ht⟩

/-- A writable operand can be stored to. -/
theorem store_of_writable (s : State) (o : Operand) (v : Word) (h : writable s o = true) :
    ∃ t, store s o v = .ok t := by
  cases o with
  | imm i => cases h
  | lbl l => cases h
  | reg r => exact ⟨_, rfl⟩
  | ind m =>
    cases ha : effAddr s m with
    | error e => simp [writable, ha] at h
    | ok a =>
      simp only [writable, ha] at h
      exact ⟨_, (store_ind s m a v ha).trans ((memWrite_ok s _ a v).mpr ⟨h, rfl⟩)⟩

/-- A location that can be read can be written: the check is on the address alone (20_memory.md R33). -/
theorem writable_of_value (s : State) (o : Operand) (d : Word) (hl : o.isLocation = true)
    (h : value s o = .ok d) : writable s o = true := by
  cases o with
  | imm i => cases hl
  | lbl l => cases hl
  | reg r => rfl
  | ind m =>
    obtain ⟨a, ha, hr⟩ := bind_ok.mp h
    simp only [writable, ha]
    exact ((memRead_ok s a d).mp hr).1

/-! ## What a store keeps -/

/-- The parts of the state that no operand write touches. -/
structure SameBut (s t : State) : Prop where
  pc : t.pc = s.pc
  flags : t.flags = s.flags
  status : t.status = s.status
  code : t.code = s.code
  labels : t.labels = s.labels
  params : t.params = s.params
  draws : t.draws = s.draws

theorem SameBut.refl (s : State) : SameBut s s := ⟨rfl, rfl, rfl, rfl, rfl, rfl, rfl⟩

theorem SameBut.trans {s t u : State} (a : SameBut s t) (b : SameBut t u) : SameBut s u :=
  ⟨b.pc.trans a.pc, b.flags.trans a.flags, b.status.trans a.status, b.code.trans a.code,
    b.labels.trans a.labels, b.params.trans a.params, b.draws.trans a.draws⟩

theorem setReg_sameBut (s : State) (r : Reg) (v : Word) : SameBut s (s.setReg r v) :=
  ⟨rfl, rfl, rfl, rfl, rfl, rfl, rfl⟩

theorem setMem_sameBut (s : State) (m : Memory) : SameBut s (s.setMem m) :=
  ⟨rfl, rfl, rfl, rfl, rfl, rfl, rfl⟩

theorem store_sameBut (s t : State) (o : Operand) (v : Word) (h : store s o v = .ok t) : SameBut s t := by
  rcases store_cases s t o v h with ⟨r, -, rfl⟩ | ⟨m, a, -, -, -, rfl⟩
  · exact setReg_sameBut s r v
  · exact setMem_sameBut s _

/-- A store writes no register but the one it names. -/
theorem store_reg_other (s t : State) (o : Operand) (v : Word) (h : store s o v = .ok t) (q : Reg)
    (hq : o ≠ .reg q) : t.reg q = s.reg q := by
  rcases store_cases s t o v h with ⟨r, rfl, rfl⟩ | ⟨m, a, -, -, -, rfl⟩
  · exact State.setReg_reg_other s r q v fun e => hq (by rw [e])
  · rfl

/-- A store to a register leaves memory alone. -/
theorem store_mem_reg (s t : State) (r : Reg) (v : Word) (h : store s (.reg r) v = .ok t) :
    t.mem = s.mem := by cases h; rfl

/-- A store to an Ind writes one word, at its effective address. -/
theorem store_mem_ind (s t : State) (m : Ind) (a v : Word) (ha : effAddr s m = .ok a)
    (h : store s (.ind m) v = .ok t) : validAddr s.params a = true ∧ t = s.setMem (writeWord s.mem a v) :=
  (memWrite_ok s t a v).mp (store_ind s m a v ha ▸ h)

/-! ## The shapes of the meanings -/

/-- Everything `combine` can do. -/
theorem combine_ok (s t : State) (src dst : Operand) (f : Word → Word → Word) (g : Word → Word → Flags) :
    combine s src dst f g = .ok t ↔
      ∃ v d u, value s src = .ok v ∧ value s dst = .ok d ∧ store s dst (f v d) = .ok u ∧
        t = advance s (u.setFlags (g v d)) := by
  unfold combine
  simp only [bind_ok, Except.ok.injEq]
  constructor
  · rintro ⟨v, hv, d, hd, u, hu, rfl⟩; exact ⟨v, d, u, hv, hd, hu, rfl⟩
  · rintro ⟨v, d, u, hv, hd, hu, rfl⟩; exact ⟨v, hv, d, hd, u, hu, rfl⟩

/-- Everything `shift` can do. -/
theorem shift_ok (s t : State) (amt dst : Operand) (f : Word → Nat → Word) (g : Word → Bool) :
    shift s amt dst f g = .ok t ↔
      ∃ c n d u, value s amt = .ok c ∧ shiftCount s c = .ok n ∧ value s dst = .ok d ∧
        store s dst (f d n) = .ok u ∧ t = advance s (u.setFlags (flagsShift s.flags n (f d n) (g d))) := by
  unfold shift
  simp only [bind_ok, Except.ok.injEq]
  constructor
  · rintro ⟨c, hc, n, hn, d, hd, u, hu, rfl⟩; exact ⟨c, n, d, u, hc, hn, hd, hu, rfl⟩
  · rintro ⟨c, n, d, u, hc, hn, hd, hu, rfl⟩; exact ⟨c, hc, n, hn, d, hd, u, hu, rfl⟩

/-- The shift count is at most 31, under either policy. -/
theorem shiftCount_lt (s : State) (c : Word) (n : Nat) (h : shiftCount s c = .ok n) : n < 32 := by
  unfold shiftCount at h
  cases hp : s.params.shiftCount with
  | fault =>
    rw [hp] at h
    by_cases hc : 31 < c.toNat
    · simp [hc] at h
    · simp only [hc, if_false, Except.ok.injEq] at h; omega
  | mask5 => rw [hp] at h; cases h; omega

end Sys2Proof.Machine
end

