-- ==== Sys2Proof/Laws/Arithmetic.lean ====
section
/-! SUPPORT. The 64-bit recipes of 40_arithmetic.md as word arithmetic, and the other result functions:
one equation per function. -/

namespace Sys2Proof.Machine

/-- Truncating a sign extension gives the word back. -/
@[simp] theorem trunc32_sext64 (v : Word) : trunc32 (sext64 v) = v := by
  apply BitVec.eq_of_getLsbD_eq
  intro i hi
  rw [trunc32, sext64, BitVec.getLsbD_setWidth, BitVec.getLsbD_signExtend]
  simp [hi, show i < 64 by omega]

theorem trunc32_add (a b : BitVec 64) : trunc32 (a + b) = trunc32 a + trunc32 b :=
  BitVec.setWidth_add a b (by omega)

theorem trunc32_neg (a : BitVec 64) : trunc32 (-a) = -trunc32 a := BitVec.setWidth_neg_of_le (by omega)

theorem trunc32_mul (a b : BitVec 64) : trunc32 (a * b) = trunc32 a * trunc32 b :=
  BitVec.setWidth_mul a b (by omega)

/-- `+32` (40_arithmetic.md R81). -/
@[simp] theorem sum32_eq (v d : Word) : sum32 v d = d + v := by
  unfold sum32; rw [trunc32_add, trunc32_sext64, trunc32_sext64]

/-- `-32` (40_arithmetic.md R82). -/
@[simp] theorem diff32_eq (v d : Word) : diff32 v d = d - v := by
  unfold diff32
  rw [trunc32_add, trunc32_neg, trunc32_sext64, trunc32_sext64, BitVec.sub_eq_add_neg]

/-- `*32` (40_arithmetic.md R83). -/
@[simp] theorem product32_eq (v d : Word) : trunc32 (product64 v d) = d * v := by
  unfold product64; rw [trunc32_mul, trunc32_sext64, trunc32_sext64]

/-- The sign of a sign extension is the word's top bit. -/
@[simp] theorem sext64_msb (v : Word) : (sext64 v).msb = v.msb := by
  unfold sext64; simp [BitVec.msb_signExtend]

@[simp] theorem sext64_toInt (v : Word) : (sext64 v).toInt = v.toInt :=
  BitVec.toInt_signExtend_of_le (by omega)

/-- The 64-bit product is exact (40_arithmetic.md R83: its size is at most 2^62). -/
theorem product64_toInt (v d : Word) : (product64 v d).toInt = d.toInt * v.toInt := by
  have hv1 := v.le_toInt; have hv2 := v.toInt_lt
  have hd1 := d.le_toInt; have hd2 := d.toInt_lt
  unfold product64
  rw [BitVec.toInt_mul, sext64_toInt, sext64_toInt]
  have hb : |d.toInt * v.toInt| ≤ 4611686018427387904 := by
    rw [abs_mul]
    have h1 : |d.toInt| ≤ 2147483648 := abs_le.mpr ⟨by omega, by omega⟩
    have h2 : |v.toInt| ≤ 2147483648 := abs_le.mpr ⟨by omega, by omega⟩
    calc |d.toInt| * |v.toInt| ≤ 2147483648 * 2147483648 :=
          mul_le_mul h1 h2 (abs_nonneg _) (by omega)
      _ = 4611686018427387904 := by norm_num
  obtain ⟨h3, h4⟩ := abs_le.mp hb
  exact Int.bmod_eq_of_le (by omega) (by omega)

/-- The word with its low byte replaced: bits 31 to 8 are kept (42_bit_manipulation.md R103). -/
theorem setLowByte_eq (d : Word) (b : Bool) :
    setLowByte d b = (d &&& 0xFFFFFF00#32) ||| (if b = true then 1#32 else 0#32) := by
  unfold setLowByte
  apply BitVec.eq_of_getLsbD_eq
  intro i hi
  have hcase : i < 8 ∨ 8 ≤ i := by omega
  cases b <;>
    simp only [BitVec.getLsbD_append, BitVec.getLsbD_extractLsb', BitVec.getLsbD_or, BitVec.getLsbD_and]
  all_goals
    rcases hcase with h | h
    · interval_cases i <;> simp
    · have h1 : ¬ i < 8 := by omega
      have h2 : 8 + (i - 8) = i := by omega
      have h3 : i - 8 < 24 := by omega
      simp [h1, h2, h3]
      interval_cases i <;> simp

end Sys2Proof.Machine
end

