-- ==== Sys2Proof/Laws/Encoding.lean ====
section
/-! SUPPORT. Each field of the serialisation reads back what was written, whatever follows it. -/

namespace Sys2Proof

@[simp] theorem decode_ok_bind {α β : Type} (a : α) (f : α → Except DecodeError β) :
    ((.ok a : Except DecodeError α) >>= f) = f a := rfl

@[simp] theorem takeByte_cons (b : Byte) (rest : List Byte) : takeByte (b :: rest) = .ok (b, rest) := rfl

theorem wordOfBytes_split (w : Word) :
    wordOfBytes (w.extractLsb' 0 8) (w.extractLsb' 8 8) (w.extractLsb' 16 8) (w.extractLsb' 24 8) = w := by
  unfold wordOfBytes
  apply BitVec.eq_of_getLsbD_eq
  intro i hi
  simp only [BitVec.getLsbD_append, BitVec.getLsbD_extractLsb']
  rcases Nat.lt_or_ge i 8 with h1 | h1
  · simp [h1]
  · rcases Nat.lt_or_ge i 16 with h2 | h2
    · simp [show ¬ i < 8 by omega, show i - 8 < 8 by omega, show 8 + (i - 8) = i by omega]
    · rcases Nat.lt_or_ge i 24 with h3 | h3
      · simp [show ¬ i < 8 by omega, show ¬ i - 8 < 8 by omega, show i - 8 - 8 < 8 by omega,
          show 16 + (i - 8 - 8) = i by omega]
      · simp [show ¬ i < 8 by omega, show ¬ i - 8 < 8 by omega, show ¬ i - 8 - 8 < 8 by omega,
          show i - 8 - 8 - 8 < 8 by omega, show 24 + (i - 8 - 8 - 8) = i by omega]

@[simp] theorem takeWord_bytes (w : Word) (rest : List Byte) :
    takeWord (bytesOfWord w ++ rest) = .ok (w, rest) := by
  show (.ok (wordOfBytes _ _ _ _, rest) : Except DecodeError _) = _
  rw [wordOfBytes_split]

@[simp] theorem takeLabel_bytes (l : Label) (rest : List Byte) :
    takeLabel (bytesOfLabel l ++ rest) = .ok (l, rest) := by
  unfold takeLabel bytesOfLabel
  rw [takeWord_bytes]; rfl

@[simp] theorem takeReg_place (r : Reg) (rest : List Byte) :
    takeReg (r.place :: rest) = .ok (r, rest) := by cases r <;> rfl

@[simp] theorem takeCond_byte (cc : CondCode) (rest : List Byte) :
    takeCond (byteOfCond cc :: rest) = .ok (cc, rest) := by cases cc <;> rfl

@[simp] theorem takeIndex_bytes (p : Reg × Word) (rest : List Byte) :
    takeIndex (p.1.place :: (bytesOfWord p.2 ++ rest)) = .ok (p, rest) := by
  simp [takeIndex]

@[simp] theorem takeDisp_bytes (d : Disp) (rest : List Byte) :
    takeDisp d.isLabel (bytesOfDisp d ++ rest) = .ok (d, rest) := by
  cases d <;> simp [takeDisp, bytesOfDisp, Disp.isLabel]

theorem presence_bits (d l i b : Bool) :
    let p : Byte := 0#4 ++ BitVec.ofBool l ++ BitVec.ofBool d ++ BitVec.ofBool i ++ BitVec.ofBool b
    p.toNat < 16 ∧ p.getLsbD 0 = b ∧ p.getLsbD 1 = i ∧ p.getLsbD 2 = d ∧ p.getLsbD 3 = l := by
  revert d l i b; decide

@[simp] theorem takeInd_bytes (m : Ind) (rest : List Byte) :
    takeInd (bytesOfInd m ++ rest) = .ok (m, rest) := by
  obtain ⟨base, index, disp⟩ := m
  obtain ⟨hlt, h0, h1, h2, h3⟩ :=
    presence_bits disp.isSome (disp.any Disp.isLabel) index.isSome base.isSome
  have hcheck : (decide (16 ≤ (Ind.presence ⟨base, index, disp⟩).toNat)
      || (disp.any Disp.isLabel && !disp.isSome)) = false := by
    have : ¬ 16 ≤ (Ind.presence ⟨base, index, disp⟩).toNat := Nat.not_le.mpr hlt
    cases disp <;> simp [this]
  unfold takeInd bytesOfInd
  simp only [List.cons_append, takeByte_cons, decode_ok_bind]
  rw [show (Ind.presence ⟨base, index, disp⟩).getLsbD 0 = base.isSome from h0,
    show (Ind.presence ⟨base, index, disp⟩).getLsbD 1 = index.isSome from h1,
    show (Ind.presence ⟨base, index, disp⟩).getLsbD 2 = disp.isSome from h2,
    show (Ind.presence ⟨base, index, disp⟩).getLsbD 3 = disp.any Disp.isLabel from h3, hcheck]
  cases base <;> cases index <;> cases disp <;> simp [takeOptional, List.append_assoc]

@[simp] theorem takeRegOperand_bytes (o : Operand) (bs rest : List Byte)
    (h : bytesOfRegOperand o = some bs) : takeRegOperand (bs ++ rest) = .ok (o, rest) := by
  cases o <;> cases h
  simp [takeRegOperand]

@[simp] theorem takeIndOperand_bytes (o : Operand) (bs rest : List Byte)
    (h : bytesOfIndOperand o = some bs) : takeIndOperand (bs ++ rest) = .ok (o, rest) := by
  cases o <;> cases h
  simp [takeIndOperand]

@[simp] theorem takeLblOperand_bytes (o : Operand) (bs rest : List Byte)
    (h : bytesOfLblOperand o = some bs) : takeLblOperand (bs ++ rest) = .ok (o, rest) := by
  cases o <;> cases h
  simp [takeLblOperand]

@[simp] theorem takeValue_bytes (o : Operand) (bs rest : List Byte)
    (h : bytesOfValue o = some bs) : takeValue (bs ++ rest) = .ok (o, rest) := by
  cases o <;> cases h <;> simp [takeValue]

@[simp] theorem takeLocation_bytes (o : Operand) (bs rest : List Byte)
    (h : bytesOfLocation o = some bs) : takeLocation (bs ++ rest) = .ok (o, rest) := by
  cases o <;> cases h <;> simp [takeLocation]

@[simp] theorem takeAmount_bytes (o : Operand) (bs rest : List Byte)
    (h : bytesOfAmount o = some bs) : takeAmount (bs ++ rest) = .ok (o, rest) := by
  cases o with
  | imm i => cases h; simp [takeAmount]
  | lbl l => cases h
  | ind m => cases h
  | reg r =>
    by_cases hr : r = .ecx
    · simp only [bytesOfAmount, hr, if_true, Option.some.injEq] at h
      subst h; subst hr; simp [takeAmount]
    · simp [bytesOfAmount, hr] at h

/-- Two slots read back, one after the other. -/
theorem take2_bytes {α β : Type} (f : α → β → Instr) (a : Reader α) (b : Reader β) (x : α) (y : β)
    (bx bY rest : List Byte) (hx : ∀ r, a (bx ++ r) = .ok (x, r)) (hy : ∀ r, b (bY ++ r) = .ok (y, r)) :
    take2 f a b (bx ++ bY ++ rest) = .ok (f x y, rest) := by
  unfold take2
  rw [List.append_assoc, hx]
  simp [hy]

theorem take1_bytes {α : Type} (f : α → Instr) (a : Reader α) (x : α) (bx rest : List Byte)
    (hx : ∀ r, a (bx ++ r) = .ok (x, r)) : take1 f a (bx ++ rest) = .ok (f x, rest) := by
  unfold take1
  rw [hx]; rfl

end Sys2Proof
end

