-- ==== Sys2Proof/Laws/Exec.lean ====
section
/-! SUPPORT. What any instruction and any step can do, said once: `exec_effect` and `step_cases`. -/

namespace Sys2Proof.Machine

/-- The parts of the state no instruction writes, and the most an instruction does to memory. -/
structure Effect (s t : State) : Prop where
  status : t.status = s.status
  code : t.code = s.code
  labels : t.labels = s.labels
  params : t.params = s.params
  mem : t.mem = s.mem ∨ ∃ a v, validAddr s.params a = true ∧ t.mem = writeWord s.mem a v

theorem Effect.of_same (s : State) : Effect s s := ⟨rfl, rfl, rfl, rfl, .inl rfl⟩

/-- An update that keeps the program, the status and memory adds nothing to an effect. -/
theorem Effect.then_same {s t u : State} (h : Effect s t) (h1 : u.status = t.status) (h2 : u.code = t.code)
    (h3 : u.labels = t.labels) (h4 : u.params = t.params) (h5 : u.mem = t.mem) : Effect s u :=
  ⟨h1.trans h.status, h2.trans h.code, h3.trans h.labels, h4.trans h.params, by rw [h5]; exact h.mem⟩

theorem store_effect (s t : State) (o : Operand) (v : Word) (h : store s o v = .ok t) : Effect s t := by
  have k := store_sameBut s t o v h
  refine ⟨k.status, k.code, k.labels, k.params, ?_⟩
  rcases store_cases s t o v h with ⟨r, -, rfl⟩ | ⟨m, a, -, -, ha, rfl⟩
  · exact .inl rfl
  · exact .inr ⟨a, v, ha, rfl⟩

theorem memWrite_effect (s t : State) (a v : Word) (h : memWrite s a v = .ok t) : Effect s t := by
  obtain ⟨ha, rfl⟩ := (memWrite_ok s t a v).mp h
  exact ⟨rfl, rfl, rfl, rfl, .inr ⟨a, v, ha, rfl⟩⟩

theorem combine_effect (s t : State) (src dst : Operand) (f : Word → Word → Word)
    (g : Word → Word → Flags) (h : combine s src dst f g = .ok t) : Effect s t := by
  obtain ⟨v, d, u, -, -, hu, rfl⟩ := (combine_ok s t src dst f g).mp h
  exact (store_effect s u dst _ hu).then_same rfl rfl rfl rfl rfl

theorem shift_effect (s t : State) (amt dst : Operand) (f : Word → Nat → Word) (g : Word → Bool)
    (h : shift s amt dst f g = .ok t) : Effect s t := by
  obtain ⟨c, n, d, u, -, -, -, hu, rfl⟩ := (shift_ok s t amt dst f g).mp h
  exact (store_effect s u dst _ hu).then_same rfl rfl rfl rfl rfl

/-- The state Pop writes DEST in differs from the old one in ESP at most. -/
theorem popView_sameBut (s : State) : SameBut s (popView s) ∧ (popView s).mem = s.mem := by
  unfold popView
  cases s.params.espOperand with
  | refuse => exact ⟨SameBut.refl s, rfl⟩
  | ia32Order => exact ⟨setReg_sameBut s _ _, rfl⟩
  | sequential => exact ⟨SameBut.refl s, rfl⟩

theorem popFinish_sameBut (s t : State) : SameBut t (popFinish s t) ∧ (popFinish s t).mem = t.mem := by
  unfold popFinish
  cases s.params.espOperand with
  | refuse => exact ⟨setReg_sameBut t _ _, rfl⟩
  | ia32Order => exact ⟨SameBut.refl t, rfl⟩
  | sequential => exact ⟨setReg_sameBut t _ _, rfl⟩

/-- Everything the push of the return address can do. -/
theorem pushReturn_ok (s t : State) :
    pushReturn s = .ok t ↔ validAddr s.params (pushSlot s) = true ∧
      t = (s.setMem (writeWord s.mem (pushSlot s) s.nextPc)).setReg .esp (pushSlot s) := by
  unfold pushReturn
  simp only [bind_ok, Except.ok.injEq, memWrite_ok]
  constructor
  · rintro ⟨u, ⟨ha, rfl⟩, rfl⟩; exact ⟨ha, rfl⟩
  · rintro ⟨ha, rfl⟩; exact ⟨_, ⟨ha, rfl⟩, rfl⟩

theorem pushReturn_effect (s t : State) (h : pushReturn s = .ok t) : Effect s t := by
  obtain ⟨ha, rfl⟩ := (pushReturn_ok s t).mp h
  exact ⟨rfl, rfl, rfl, rfl, .inr ⟨_, _, ha, rfl⟩⟩

/-- Everything Call can do: its operand is readable before the push, the return address is pushed, and it
goes to the operand's value. -/
theorem callBody_ok (s t : State) (src : Operand) :
    callBody src s = .ok t ↔ ∃ early u target, value (pushView s) src = .ok early ∧ pushReturn s = .ok u ∧
      callTarget src u early = .ok target ∧ t = u.setPc target := by
  unfold callBody
  simp only [bind_ok, Except.ok.injEq]
  constructor
  · rintro ⟨v, hv, u, hu, a, ha, rfl⟩; exact ⟨v, u, a, hv, hu, ha, rfl⟩
  · rintro ⟨v, u, a, hv, hu, ha, rfl⟩; exact ⟨v, hv, u, hu, a, ha, rfl⟩

/-- An operand faults after the push exactly when, and as, it faults with ESP already moved. -/
theorem value_pushed_error (s : State) (v : Word) (o : Operand) (f : Fault) :
    value ((s.setMem (writeWord s.mem (pushSlot s) v)).setReg .esp (pushSlot s)) o = .error f ↔
      value (espDown s) o = .error f := by
  cases o with
  | imm i => exact Iff.rfl
  | lbl l => exact Iff.rfl
  | reg r => exact ⟨nofun, nofun⟩
  | ind m =>
    cases h : effAddr (espDown s) m with
    | error e =>
      have h' : effAddr ((s.setMem (writeWord s.mem (pushSlot s) v)).setReg .esp (pushSlot s)) m = .error e := h
      simp only [value, h, h', error_bind]
    | ok a =>
      have h' : effAddr ((s.setMem (writeWord s.mem (pushSlot s) v)).setReg .esp (pushSlot s)) m = .ok a := h
      rw [value_ind _ m a h', value_ind _ m a h, memRead_error, memRead_error]
      exact Iff.rfl

theorem call_effect (s t : State) (src : Operand) (h : callBody src s = .ok t) : Effect s t := by
  obtain ⟨_, u, _, -, hu, -, rfl⟩ := (callBody_ok s t src).mp h
  exact (pushReturn_effect s u hu).then_same rfl rfl rfl rfl rfl

/-- Whatever the instruction, a next state of `exec` has only this effect. -/
theorem exec_effect (i : Instr) (s t : State) (h : exec i s = .next t) : Effect s t := by
  cases i <;> replace h := ((runTerm_next _ _ _ _).mp h).2
  case neg dst =>
    obtain ⟨d, -, h⟩ := bind_ok.mp h
    obtain ⟨u, hu, h⟩ := bind_ok.mp h
    cases h; exact (store_effect s u dst _ hu).then_same rfl rfl rfl rfl rfl
  case add src dst => exact combine_effect _ _ _ _ _ _ h
  case sub src dst => exact combine_effect _ _ _ _ _ _ h
  case imul src dst =>
    obtain ⟨v, -, h⟩ := bind_ok.mp h
    obtain ⟨d, -, h⟩ := bind_ok.mp h
    obtain ⟨u, hu, h⟩ := bind_ok.mp h
    cases h; exact (store_effect s u dst _ hu).then_same rfl rfl rfl rfl rfl
  case not dst =>
    obtain ⟨d, -, h⟩ := bind_ok.mp h
    obtain ⟨u, hu, h⟩ := bind_ok.mp h
    cases h; exact (store_effect s u dst _ hu).then_same rfl rfl rfl rfl rfl
  case and src dst => exact combine_effect _ _ _ _ _ _ h
  case or src dst => exact combine_effect _ _ _ _ _ _ h
  case xor src dst => exact combine_effect _ _ _ _ _ _ h
  case sar amt dst => exact shift_effect _ _ _ _ _ _ h
  case shl amt dst =>
    obtain ⟨c, -, h⟩ := bind_ok.mp h
    obtain ⟨n, -, h⟩ := bind_ok.mp h
    obtain ⟨d, -, h⟩ := bind_ok.mp h
    obtain ⟨u, hu, h⟩ := bind_ok.mp h
    cases h; exact (store_effect s u dst _ hu).then_same rfl rfl rfl rfl rfl
  case shr amt dst => exact shift_effect _ _ _ _ _ _ h
  case setb cc dst =>
    obtain ⟨d, -, h⟩ := bind_ok.mp h
    obtain ⟨u, hu, h⟩ := bind_ok.mp h
    cases h; exact (store_effect s u dst _ hu).then_same rfl rfl rfl rfl rfl
  case lea src dst =>
    obtain ⟨d, -, h⟩ := bind_ok.mp h
    obtain ⟨u, hu, h⟩ := bind_ok.mp h
    cases h; exact (store_effect s u dst _ hu).then_same rfl rfl rfl rfl rfl
  case mov src dst =>
    obtain ⟨d, -, h⟩ := bind_ok.mp h
    obtain ⟨u, hu, h⟩ := bind_ok.mp h
    cases h; exact (store_effect s u dst _ hu).then_same rfl rfl rfl rfl rfl
  case push src =>
    obtain ⟨v, -, h⟩ := bind_ok.mp h
    obtain ⟨u, hu, h⟩ := bind_ok.mp h
    cases h; exact (memWrite_effect s u _ _ hu).then_same rfl rfl rfl rfl rfl
  case pop dst =>
    obtain ⟨v, -, h⟩ := bind_ok.mp h
    obtain ⟨u, hu, h⟩ := bind_ok.mp h
    cases h
    have hv := popView_sameBut s
    have hf := popFinish_sameBut s u
    have e := store_effect (popView s) u dst v hu
    have e' : Effect s u := ⟨e.status.trans hv.1.status, e.code.trans hv.1.code,
      e.labels.trans hv.1.labels, e.params.trans hv.1.params, by
        have hm := e.mem; rw [hv.2, hv.1.params] at hm; exact hm⟩
    exact e'.then_same hf.1.status hf.1.code hf.1.labels hf.1.params hf.2
  case cmp src2 src1 =>
    obtain ⟨v, -, h⟩ := bind_ok.mp h
    obtain ⟨d, -, h⟩ := bind_ok.mp h
    cases h; exact (Effect.of_same s).then_same rfl rfl rfl rfl rfl
  case jmp src =>
    obtain ⟨v, -, h⟩ := bind_ok.mp h
    cases h; exact (Effect.of_same s).then_same rfl rfl rfl rfl rfl
  case call src => exact call_effect s t src h
  case ret =>
    obtain ⟨v, -, h⟩ := bind_ok.mp h
    cases h; exact (Effect.of_same s).then_same rfl rfl rfl rfl rfl
  case j cc target =>
    obtain ⟨v, -, h⟩ := bind_ok.mp h
    cases h; exact (Effect.of_same s).then_same rfl rfl rfl rfl rfl

/-- No instruction is refused: each answers a next state or one of the spec's faults. -/
theorem exec_not_refused (i : Instr) (s : State) (r : Refusal) : exec i s ≠ .refused r := by
  cases i <;> exact runTerm_not_refused _ _ _ _

/-- Everything a step can do: end the run, take a fault, or run the fetched instruction. -/
theorem step_cases (s t : State) (h : step s = .next t) :
    s.status = .running ∧
    ((s.pc = s.params.haltAddr ∧ t = haltRun s) ∨
     (s.pc ≠ s.params.haltAddr ∧ ∃ f, t = takeFault f s) ∨
     (s.pc ≠ s.params.haltAddr ∧ ∃ cell, s.fetched = some cell ∧ exec cell.instr s = .next t)) := by
  unfold step at h
  cases hs : s.status with
  | halted => rw [hs] at h; cases h
  | faulted f => rw [hs] at h; cases h
  | running =>
    rw [hs] at h
    refine ⟨rfl, ?_⟩
    by_cases hp : s.pc = s.params.haltAddr
    · simp only [hp, if_true] at h
      cases h; exact .inl ⟨hp, rfl⟩
    · simp only [hp, if_false] at h
      refine .inr ?_
      cases hf : s.fetched with
      | none => rw [hf] at h; cases h; exact .inl ⟨hp, _, rfl⟩
      | some cell =>
        rw [hf] at h
        cases he : exec cell.instr s with
        | next u => simp only [he, settle] at h; cases h; exact .inr ⟨hp, cell, rfl, he⟩
        | fault f => simp only [he, settle] at h; cases h; exact .inl ⟨hp, f, rfl⟩
        | refused r => exact absurd he (exec_not_refused _ _ r)

end Sys2Proof.Machine
end

