-- ==== Sys2Proof/Laws/Load.lean ====
section
/-! SUPPORT. What loading a program gives: the keys and the k-th cell of a placed text, the lines of the
reference layout, and what a map with distinct keys answers at one of them. -/

namespace Sys2Proof.Machine

/-- With distinct keys, every entry is the one found at its key. -/
theorem lookup_of_distinct {α : Type} {k : Nat} {v : α} : ∀ {l : List (Nat × α)}, DistinctKeys l → (k, v) ∈ l →
    lookup k l = some v
  | (j, w) :: rest, hd, hm => by
    obtain ⟨hj, hr⟩ := List.nodup_cons.mp hd
    rcases List.mem_cons.mp hm with h | h
    · cases h; exact if_pos rfl
    · have hne : j ≠ k := fun e => hj (e ▸ List.mem_map.mpr ⟨_, h, rfl⟩)
      exact (if_neg hne).trans (lookup_of_distinct hr h)

/-- Nothing is found at a key that is not in the map. -/
theorem lookup_eq_none {α : Type} {k : Nat} : ∀ {l : List (Nat × α)}, lookup k l = none ↔ k ∉ l.map Prod.fst
  | [] => by simp [lookup]
  | (j, v) :: rest => by
    by_cases h : j = k
    · simp [lookup, h]
    · simp [lookup, h, lookup_eq_none (l := rest), Ne.symm h]

/-- A placed text stands at the addresses of its lines, in program order. -/
theorem placeText_keys (last : Word) : ∀ text : List Line,
    (placeText last text).map Prod.fst = (text.map Line.addr).map BitVec.toNat
  | [] => rfl
  | ln :: rest => by simp [placeText, placeText_keys last rest]

/-- The k-th cell of a placed text: the k-th instruction, followed by the address of the next line, or by
`last`. -/
theorem placeText_getElem? (last : Word) : ∀ (text : List Line) (k : Nat),
    (placeText last text)[k]? = text[k]?.map fun ln =>
      (ln.addr.toNat, { instr := ln.instr, next := (text[k + 1]?.map Line.addr).getD last })
  | [], k => by simp [placeText]
  | ln :: rest, 0 => by cases rest <;> simp [placeText]
  | ln :: rest, k + 1 => by simp [placeText, placeText_getElem? last rest k]

/-- The k-th line under the reference layout. -/
theorem textRL4_getElem? : ∀ (lines : List (List Label × Instr)) (start k : Nat),
    (textRL4 start lines)[k]? = lines[k]?.map fun c =>
      { addr := addrRL4 (start + k), labels := c.1, instr := c.2 }
  | [], start, k => by simp [textRL4]
  | c :: rest, start, 0 => by simp [textRL4]
  | c :: rest, start, k + 1 => by
    simp [textRL4, textRL4_getElem? rest (start + 1) k, Nat.add_assoc, Nat.add_comm 1 k]

/-- Consecutive addresses of the reference layout are 4 apart. -/
theorem addrRL4_succ (k : Nat) : addrRL4 (k + 1) = addrRL4 k + 4#32 := by
  simp only [addrRL4, BitVec.ofNat_add, BitVec.mul_add, BitVec.add_assoc]
  rfl

/-- The entries of `LblAddr`: the labels of the lines and the data labels. -/
theorem Program.mem_labels (q : Program) (l : Nat) (a : Word) : (l, a) ∈ q.labels ↔
    (∃ ln ∈ q.text, ∃ m ∈ ln.labels, m.val = l ∧ ln.addr = a) ∨ ∃ d ∈ q.data, d.1.val = l ∧ d.2 = a := by
  simp [Program.labels, Program.codeLabels, Program.dataLabels]

end Sys2Proof.Machine
end

