-- ==== Sys2Proof/Laws/PerInstr.lean ====
section
/-! SUPPORT. The family TagByte: the serialisation of an instruction begins with its tag, the source's own
number, one lemma per instruction (30_encoding.md R51, R52). -/

namespace Sys2Proof.Laws.TagByte

/-- The first byte of an encoding is the instruction's tag, and the tag is in 1..21. -/
def Statement (i : Instr) : Prop :=
  ∀ bs, encode i = some bs → (bs.head?.map BitVec.toNat) = some i.tag ∧ 1 ≤ i.tag ∧ i.tag ≤ 21

/-- An encoding is the tag byte and the fields. -/
theorem encode_head (i : Instr) (bs : List Byte) (h : encode i = some bs) :
    bs.head? = some (BitVec.ofNat 8 i.tag) := by
  unfold encode at h
  split at h
  · cases h; rfl
  · cases h

/-- The tags are 1 to 21 (R52). -/
theorem tag_range (i : Instr) : 1 ≤ i.tag ∧ i.tag ≤ 21 := by cases i <;> simp [Instr.tag]

theorem statement_of (i : Instr) : Statement i := by
  intro bs hb
  rw [encode_head i bs hb]
  refine ⟨?_, tag_range i⟩
  have := tag_range i
  simp only [Option.map_some, BitVec.toNat_ofNat, Option.some.injEq]
  omega

end Sys2Proof.Laws.TagByte

namespace Sys2Proof

theorem Laws.TagByte.neg (d : Operand) : Laws.TagByte.Statement (.neg d) :=
  Laws.TagByte.statement_of _
theorem Laws.TagByte.add (s d : Operand) : Laws.TagByte.Statement (.add s d) :=
  Laws.TagByte.statement_of _
theorem Laws.TagByte.sub (s d : Operand) : Laws.TagByte.Statement (.sub s d) :=
  Laws.TagByte.statement_of _
theorem Laws.TagByte.imul (s d : Operand) : Laws.TagByte.Statement (.imul s d) :=
  Laws.TagByte.statement_of _
theorem Laws.TagByte.not (d : Operand) : Laws.TagByte.Statement (.not d) :=
  Laws.TagByte.statement_of _
theorem Laws.TagByte.and (s d : Operand) : Laws.TagByte.Statement (.and s d) :=
  Laws.TagByte.statement_of _
theorem Laws.TagByte.or (s d : Operand) : Laws.TagByte.Statement (.or s d) :=
  Laws.TagByte.statement_of _
theorem Laws.TagByte.xor (s d : Operand) : Laws.TagByte.Statement (.xor s d) :=
  Laws.TagByte.statement_of _
theorem Laws.TagByte.sar (a d : Operand) : Laws.TagByte.Statement (.sar a d) :=
  Laws.TagByte.statement_of _
theorem Laws.TagByte.shl (a d : Operand) : Laws.TagByte.Statement (.shl a d) :=
  Laws.TagByte.statement_of _
theorem Laws.TagByte.shr (a d : Operand) : Laws.TagByte.Statement (.shr a d) :=
  Laws.TagByte.statement_of _
theorem Laws.TagByte.setb (cc : CondCode) (d : Operand) : Laws.TagByte.Statement (.setb cc d) :=
  Laws.TagByte.statement_of _
theorem Laws.TagByte.lea (m d : Operand) : Laws.TagByte.Statement (.lea m d) :=
  Laws.TagByte.statement_of _
theorem Laws.TagByte.mov (s d : Operand) : Laws.TagByte.Statement (.mov s d) :=
  Laws.TagByte.statement_of _
theorem Laws.TagByte.push (s : Operand) : Laws.TagByte.Statement (.push s) :=
  Laws.TagByte.statement_of _
theorem Laws.TagByte.pop (d : Operand) : Laws.TagByte.Statement (.pop d) :=
  Laws.TagByte.statement_of _
theorem Laws.TagByte.cmp (s2 s1 : Operand) : Laws.TagByte.Statement (.cmp s2 s1) :=
  Laws.TagByte.statement_of _
theorem Laws.TagByte.jmp (s : Operand) : Laws.TagByte.Statement (.jmp s) :=
  Laws.TagByte.statement_of _
theorem Laws.TagByte.call (s : Operand) : Laws.TagByte.Statement (.call s) :=
  Laws.TagByte.statement_of _
theorem Laws.TagByte.ret : Laws.TagByte.Statement (.ret) :=
  Laws.TagByte.statement_of _
theorem Laws.TagByte.j (cc : CondCode) (t : Operand) : Laws.TagByte.Statement (.j cc t) :=
  Laws.TagByte.statement_of _

end Sys2Proof
end

