-- ==== Sys2Proof/Tests/Slice0.lean ====
section
/-! SUPPORT. The model's own tests. Expected values come from spec/95_test_vectors.md, named V<n>.<m>, and
from bytes written out by hand from the format of the serialisation (log 1); each witness shows a state and
operands that meet the hypotheses of the statement it names. -/

namespace Sys2Proof.Tests

open Sys2Proof.Machine Sys2Proof.Claims

/-! ## Helpers -/

/-- The next state of an outcome. -/
def nextOf : Host.Outcome State Fault Refusal → Option State
  | .next t => some t
  | .fault _ => none
  | .refused _ => none

/-- The fault of an outcome. -/
def faultOf : Host.Outcome State Fault Refusal → Option Fault
  | .next _ => none
  | .fault f => some f
  | .refused _ => none

theorem next_of_isSome {o : Host.Outcome State Fault Refusal} (h : (nextOf o).isSome = true) :
    ∃ t, o = .next t := by
  cases o with
  | next t => exact ⟨t, rfl⟩
  | fault f => cases h
  | refused r => cases h

theorem fault_of_isSome {o : Host.Outcome State Fault Refusal} (f : Fault) (h : faultOf o = some f) :
    o = .fault f := by
  cases o with
  | next t => cases h
  | fault g => cases h; rfl
  | refused r => cases h

/-- One instruction at 0x1000, the parameters, labels, flags, registers and words of memory given. -/
def machine (p : Config.Params) (labels : List (Nat × Word)) (f : Flags) (regs : List (Reg × Word))
    (mem : List (Word × Word)) (i : Instr) : State :=
  mem.foldl (fun s c => s.setMem (writeWord s.mem c.1 c.2))
    (regs.foldl (fun s r => s.setReg r.1 r.2)
      { State.reset with
        params := p, labels := labels, flags := f
        code := [(0x1000, { instr := i, next := 0x00001004#32 })] })

def clear : Flags := { of := false, sf := false, zf := false }

/-- `machine` with the default parameters, no labels, clear flags. -/
def plain (regs : List (Reg × Word)) (mem : List (Word × Word)) (i : Instr) : State :=
  machine Config.Params.default [] clear regs mem i

/-- The state with `next` of its one instruction moved: a layout other than RL4 (20_memory.md R41). -/
def withNext (a : Word) (s : State) : State :=
  { s with code := s.code.map fun c => (c.1, { c.2 with next := a }) }

/-- What a step leaves, seen through `f`. -/
def after {α : Type} (f : State → α) (s : State) : Option α := (nextOf (step s)).map f

/-- Status, EIP and ESP: what the tests of a fault look at. -/
def outcome (s : State) : Option (Status × Word × Word) := after (fun t => (t.status, t.pc, t.reg .esp)) s

/-- The default parameters with another policy. -/
def withEsp (e : Config.EspOperandPolicy) : Config.Params := { Config.Params.default with espOperand := e }
def withSub (m : Config.SubMinIntOf) : Config.Params := { Config.Params.default with subMinIntOf := m }
def withShl (m : Config.Shl1OfPolicy) : Config.Params := { Config.Params.default with shl1Of := m }
def mask5 : Config.Params := { Config.Params.default with shiftCount := .mask5 }

/-- Addressing by a base and a displacement. -/
def at_ (b : Reg) (d : Word) : Operand := .ind { base := some b, index := none, disp := some (.word d) }

/-- Addressing by a displacement alone. -/
def abs_ (d : Word) : Operand := .ind { base := none, index := none, disp := some (.word d) }

/-! ## WellFormed: an ill-formed term for each check of 30_encoding.md R70 -/

theorem test_wf_destNotLocation : illFormed State.reset (.mov (.reg .eax) (.imm 1#32)) = some .destNotLocation := by
  decide
theorem test_wf_twoIndirect :
    illFormed State.reset (.cmp (at_ .eax 0#32) (at_ .ebx 0#32)) = some .twoIndirect := by decide
theorem test_wf_indexEsp :
    illFormed State.reset (.lea (.ind { base := none, index := some (.esp, 1#32), disp := none }) (.reg .eax))
      = some .indexEsp := by decide
theorem test_wf_badAmount : illFormed State.reset (.sar (.reg .edx) (.reg .eax)) = some .badAmount := by decide
theorem test_wf_imulDestNotReg :
    illFormed State.reset (.imul (.imm 2#32) (at_ .eax 0#32)) = some .imulDestNotReg := by decide
theorem test_wf_leaSourceNotInd :
    illFormed State.reset (.lea (.reg .eax) (.reg .ebx)) = some .leaSourceNotInd := by decide
theorem test_wf_leaDestNotReg :
    illFormed State.reset (.lea (at_ .eax 0#32) (at_ .ebx 0#32)) = some .leaDestNotReg := by decide
theorem test_wf_targetNotLabel :
    illFormed State.reset (.j .eq (.reg .eax)) = some .targetNotLabel := by decide
theorem test_wf_unresolvedLabel : illFormed State.reset (.jmp (.lbl 7)) = some .unresolvedLabel := by decide
theorem test_wf_mentionsEsp : illFormed State.reset (.pop (at_ .esp 4#32)) = some .mentionsEsp := by decide
theorem test_wf_badNumber : decode [0x16#8] = .error (.illFormed .badNumber) := by decide
/-- A well-formed term passes every check (R70); ESP may be a base, and an operand of Mov. -/
theorem test_wf_good : WellFormed .refuse (fun _ => false) (.mov (.reg .esp) (at_ .esp 4#32)) := by decide

/-! ## Decode: bytes written out by hand, one term per constructor -/

/-- Tag 1; location 0 = Reg; EBP is place 6. -/
theorem test_decode_neg : decode [0x01#8, 0x00#8, 0x06#8] = .ok (.neg (.reg .ebp), []) := by decide
/-- Tag 2; value 0 = Imm 0x12345678, low byte first; location 1 = Ind with a base (bit 0), ESI = 4. -/
theorem test_decode_add :
    decode [0x02#8, 0x00#8, 0x78#8, 0x56#8, 0x34#8, 0x12#8, 0x01#8, 0x01#8, 0x04#8]
      = .ok (.add (.imm 0x12345678#32) (.ind { base := some .esi, index := none, disp := none }), []) := by
  decide
/-- Tag 3; value 2 = Reg EDX (3); location Reg ESP (7). -/
theorem test_decode_sub :
    decode [0x03#8, 0x02#8, 0x03#8, 0x00#8, 0x07#8] = .ok (.sub (.reg .edx) (.reg .esp), []) := by decide
/-- Tag 4; value 1 = Lbl 258; the Reg slot has no kind byte. -/
theorem test_decode_imul :
    decode [0x04#8, 0x01#8, 0x02#8, 0x01#8, 0x00#8, 0x00#8, 0x05#8] = .ok (.imul (.lbl 258) (.reg .edi), []) := by
  decide
/-- Tag 5; location Ind with nothing present. -/
theorem test_decode_not :
    decode [0x05#8, 0x01#8, 0x00#8] = .ok (.not (.ind { base := none, index := none, disp := none }), []) := by
  decide
/-- Tag 6; Reg EAX, Reg EBX, and a byte left over. -/
theorem test_decode_and :
    decode [0x06#8, 0x02#8, 0x00#8, 0x00#8, 0x01#8, 0xFF#8] = .ok (.and (.reg .eax) (.reg .ebx), [0xFF#8]) := by
  decide
/-- Tag 7; value 3 = Ind with a word displacement (bit 2). -/
theorem test_decode_or :
    decode [0x07#8, 0x03#8, 0x04#8, 0x20#8, 0xF0#8, 0xFF#8, 0xFF#8, 0x00#8, 0x00#8]
      = .ok (.or (abs_ 0xFFFFF020#32) (.reg .eax), []) := by decide
/-- Tag 8; Imm -1. -/
theorem test_decode_xor :
    decode [0x08#8, 0x00#8, 0xFF#8, 0xFF#8, 0xFF#8, 0xFF#8, 0x00#8, 0x01#8]
      = .ok (.xor (.imm 0xFFFFFFFF#32) (.reg .ebx), []) := by decide
/-- Tag 9; AMT 1 = ECX. -/
theorem test_decode_sar :
    decode [0x09#8, 0x01#8, 0x00#8, 0x00#8] = .ok (.sar (.reg .ecx) (.reg .eax), []) := by decide
/-- Tag 10; AMT 0 = Imm 31. -/
theorem test_decode_shl :
    decode [0x0A#8, 0x00#8, 0x1F#8, 0x00#8, 0x00#8, 0x00#8, 0x00#8, 0x02#8]
      = .ok (.shl (.imm 31#32) (.reg .ecx), []) := by decide
/-- Tag 11; AMT ECX; Ind with base EBX. -/
theorem test_decode_shr :
    decode [0x0B#8, 0x01#8, 0x01#8, 0x01#8, 0x01#8]
      = .ok (.shr (.reg .ecx) (.ind { base := some .ebx, index := none, disp := none }), []) := by decide
/-- Tag 12; Slt is code 5, byte 4. -/
theorem test_decode_setb :
    decode [0x0C#8, 0x04#8, 0x00#8, 0x00#8] = .ok (.setb .slt (.reg .eax), []) := by decide
/-- Tag 13; an Ind with all parts, its displacement a label (bits 0 to 3); no kind bytes. -/
theorem test_decode_lea :
    decode [0x0D#8, 0x0F#8, 0x06#8, 0x02#8, 0x04#8, 0x00#8, 0x00#8, 0x00#8, 0x09#8, 0x00#8, 0x00#8, 0x00#8,
        0x00#8]
      = .ok (.lea (.ind { base := some .ebp, index := some (.ecx, 4#32), disp := some (.label 9) })
          (.reg .eax), []) := by decide
/-- Tag 14; Reg ESP to Reg EBP. -/
theorem test_decode_mov :
    decode [0x0E#8, 0x02#8, 0x07#8, 0x00#8, 0x06#8] = .ok (.mov (.reg .esp) (.reg .ebp), []) := by decide
/-- Tag 15; Imm 3. -/
theorem test_decode_push :
    decode [0x0F#8, 0x00#8, 0x03#8, 0x00#8, 0x00#8, 0x00#8] = .ok (.push (.imm 3#32), []) := by decide
/-- Tag 16; Reg EBP. -/
theorem test_decode_pop : decode [0x10#8, 0x00#8, 0x06#8] = .ok (.pop (.reg .ebp), []) := by decide
/-- Tag 17; both slots admit values: Reg EAX, Imm 10. -/
theorem test_decode_cmp :
    decode [0x11#8, 0x02#8, 0x00#8, 0x00#8, 0x0A#8, 0x00#8, 0x00#8, 0x00#8]
      = .ok (.cmp (.reg .eax) (.imm 10#32), []) := by decide
/-- Tag 18; an Ind with index EBX, scale 4 (bit 1). -/
theorem test_decode_jmp :
    decode [0x12#8, 0x03#8, 0x02#8, 0x01#8, 0x04#8, 0x00#8, 0x00#8, 0x00#8]
      = .ok (.jmp (.ind { base := none, index := some (.ebx, 4#32), disp := none }), []) := by decide
/-- Tag 19; Lbl 1. -/
theorem test_decode_call :
    decode [0x13#8, 0x01#8, 0x01#8, 0x00#8, 0x00#8, 0x00#8] = .ok (.call (.lbl 1), []) := by decide
/-- Tag 20; no operand. -/
theorem test_decode_ret : decode [0x14#8] = .ok (.ret, []) := by decide
/-- Tag 21; Sgt is code 8, byte 7; the Lbl slot has no kind byte. -/
theorem test_decode_j :
    decode [0x15#8, 0x07#8, 0x2A#8, 0x00#8, 0x00#8, 0x00#8] = .ok (.j .sgt (.lbl 42), []) := by decide

/-- What the decoder refuses: an end inside a term, a kind, a register, a presence byte. -/
theorem test_decode_refuses :
    decode [] = .error .truncated ∧ decode [0x02#8, 0x00#8, 0x78#8] = .error .truncated ∧
    decode [0x01#8, 0x02#8] = .error .badKind ∧ decode [0x01#8, 0x00#8, 0x08#8] = .error .badRegister ∧
    decode [0x05#8, 0x01#8, 0x10#8] = .error .badIndirect ∧
    decode [0x05#8, 0x01#8, 0x08#8] = .error .badIndirect := by decide

/-- The host's entries: the table's word of Ret, and of Neg with zero fields, as the first step. -/
theorem test_withFetchWord :
    decodeTableWord 8 0x14 = some .ret ∧ decodeTableWord 8 0x01 = some (.neg (.reg .eax)) ∧
    decodeTableWord 8 0x00 = none ∧
    after (fun t => (t.reg .eax, t.pc)) (State.reset.withFetchWord 8 0x01)
      = some (0xFEFEFEFF#32, 0x00001004#32) ∧
    outcome (State.reset.withFetchWord 8 0x14) = some (.running, 0#32, 0#32) ∧
    (State.reset.withFetchWord 8 0x14).wf := by decide
/-- A label that stands as a displacement resolves to the lowest valid address (20_memory.md R42; log 16):
Neg of what the window's first word, which nothing has written, reads as (log 3). -/
theorem test_withFetchWord_dataLabel :
    after (fun t => readWord t.mem 0xFFFFF000#32) (State.reset.withFetchWord 56 0x010C0101) = some 0x5A5A5A5B#32 ∧
    (State.reset.withFetchWord 56 0x010C0101).wf := by decide

/-! ## One step, by the vectors of 95_test_vectors.md -/

/-- V1.3. -/
theorem test_neg_minInt :
    after (fun t => (t.reg .eax, t.flags)) (plain [(.eax, 0x80000000#32)] [] (.neg (.reg .eax)))
      = some (0x80000000#32, { of := true, sf := true, zf := false }) := by decide
/-- V1.5. -/
theorem test_neg_memory :
    after (fun t => (readWord t.mem 0xFFFFF010#32, t.flags))
        (plain [(.ebx, 0xFFFFF010#32)] [(0xFFFFF010#32, 1#32)] (.neg (at_ .ebx 0#32)))
      = some (0xFFFFFFFF#32, { of := false, sf := true, zf := false }) := by decide
/-- V1.6, V1.8. -/
theorem test_add_overflow :
    after (fun t => (t.reg .eax, t.flags)) (plain [(.eax, 0x7FFFFFFF#32)] [] (.add (.imm 1#32) (.reg .eax)))
      = some (0x80000000#32, { of := true, sf := true, zf := false }) ∧
    after (fun t => (t.reg .eax, t.flags))
        (plain [(.eax, 0x80000000#32), (.ebx, 0x80000000#32)] [] (.add (.reg .ebx) (.reg .eax)))
      = some (0#32, { of := true, sf := false, zf := true }) := by decide
/-- V1.13. -/
theorem test_add_memory :
    after (fun t => (readWord t.mem 0xFFFFFEFC#32, t.pc))
        (plain [(.ecx, 7#32), (.ebp, 0xFFFFFF00#32)] [(0xFFFFFEFC#32, 0x20#32)]
          (.add (.reg .ecx) (at_ .ebp 0xFFFFFFFC#32)))
      = some (0x27#32, 0x00001004#32) := by decide
/-- V1.15: DEST minus SRC. -/
theorem test_sub_order :
    after (fun t => (t.reg .eax, t.flags)) (plain [(.eax, 5#32)] [] (.sub (.imm 7#32) (.reg .eax)))
      = some (0xFFFFFFFE#32, { of := false, sf := true, zf := false }) := by decide
/-- V1.19, V1.20. -/
theorem test_sub_minInt :
    after (fun t => (t.reg .eax, t.flags))
        (plain [(.eax, 0xFFFFFFFF#32)] [] (.sub (.imm 0x80000000#32) (.reg .eax)))
      = some (0x7FFFFFFF#32, { of := true, sf := false, zf := false }) ∧
    after (fun t => (t.reg .eax, t.flags))
        (machine (withSub .trueOverflow) [] clear [(.eax, 0xFFFFFFFF#32)] []
          (.sub (.imm 0x80000000#32) (.reg .eax)))
      = some (0x7FFFFFFF#32, clear) := by decide
/-- V1.28; SF and ZF are draws. -/
theorem test_imul_minInt :
    after (fun t => (t.reg .eax, t.flags.of, t.draws))
        (plain [(.eax, 0x80000000#32)] [] (.imul (.imm 0xFFFFFFFF#32) (.reg .eax)))
      = some (0x80000000#32, true, 2) := by decide
/-- V1.29, V1.30. -/
theorem test_imul_boundary :
    after (fun t => (t.reg .eax, t.flags.of)) (plain [(.eax, 0xB505#32)] [] (.imul (.imm 46341#32) (.reg .eax)))
      = some (0x80001219#32, true) ∧
    after (fun t => (t.reg .eax, t.flags.of)) (plain [(.eax, 0xB504#32)] [] (.imul (.imm 46340#32) (.reg .eax)))
      = some (0x7FFEA810#32, false) := by decide
/-- V2.1. -/
theorem test_not_keeps_flags :
    after (fun t => (t.reg .ecx, t.flags))
        (machine Config.Params.default [] { of := true, sf := true, zf := true } [(.ecx, 0x0F0F00FF#32)] []
          (.not (.reg .ecx)))
      = some (0xF0F0FF00#32, { of := true, sf := true, zf := true }) := by decide
/-- V2.7. -/
theorem test_and_scaled :
    after (fun t => (readWord t.mem 0xFFFFF008#32, t.flags))
        (plain [(.ebx, 0xFFFFF000#32), (.ecx, 2#32)] [(0xFFFFF008#32, 0x103#32)]
          (.and (.imm 1#32) (.ind { base := some .ebx, index := some (.ecx, 4#32), disp := none })))
      = some (1#32, clear) := by decide
/-- V2.8. -/
theorem test_or_sign :
    after (fun t => (t.reg .edx, t.flags)) (plain [(.edx, 1#32)] [] (.or (.imm 0x80000000#32) (.reg .edx)))
      = some (0x80000001#32, { of := false, sf := true, zf := false }) := by decide
/-- V2.13. -/
theorem test_xor_zero :
    after (fun t => (t.reg .ebx, t.flags))
        (machine Config.Params.default [] { of := true, sf := true, zf := false } [(.ebx, 0x80000000#32)] []
          (.xor (.imm 0x80000000#32) (.reg .ebx)))
      = some (0#32, { of := false, sf := false, zf := true }) := by decide
/-- V3.2: -5 by 1 is -3, OF 0. -/
theorem test_sar_floor :
    after (fun t => (t.reg .eax, t.flags))
        (machine Config.Params.default [] { of := true, sf := false, zf := false } [(.eax, 0xFFFFFFFB#32)] []
          (.sar (.imm 1#32) (.reg .eax)))
      = some (0xFFFFFFFD#32, { of := false, sf := true, zf := false }) := by decide
/-- V3.10, V3.11, V3.13: the whole of ECX is the count; the count comes before DEST. -/
theorem test_sar_count :
    outcome (plain [(.ecx, 0x101#32), (.eax, 0x80000000#32)] [] (.sar (.reg .ecx) (.reg .eax)))
      = some (.faulted (.shiftCountFault 0x101#32), 0x00001000#32, 0xFFFFFFFC#32) ∧
    after (fun t => t.reg .eax)
        (machine mask5 [] clear [(.ecx, 0x101#32), (.eax, 0x80000000#32)] [] (.sar (.reg .ecx) (.reg .eax)))
      = some 0xC0000000#32 ∧
    outcome (plain [(.eax, 0xFFFFF002#32)] [] (.sar (.imm 40#32) (at_ .eax 0#32)))
      = some (.faulted (.shiftCountFault 40#32), 0x00001000#32, 0xFFFFFFFC#32) := by decide
/-- V3.17; V3.20 and V3.21, the two policies that take no draw. -/
theorem test_shl_by_one :
    after (fun t => (t.reg .eax, t.flags)) (plain [(.eax, 0x80000000#32)] [] (.shl (.imm 1#32) (.reg .eax)))
      = some (0#32, { of := true, sf := false, zf := true }) ∧
    after (fun t => t.flags.of)
        (machine (withShl .unchanged) [] { of := true, sf := false, zf := false } [(.eax, 0xC0000000#32)] []
          (.shl (.imm 1#32) (.reg .eax))) = some true ∧
    after (fun t => t.flags.of)
        (machine (withShl .cleared) [] { of := true, sf := false, zf := false } [(.eax, 0xC0000000#32)] []
          (.shl (.imm 1#32) (.reg .eax))) = some false := by decide
/-- V3.18, V3.19: under `Either` a draw is taken; with the old OF 0 both readings give 0. -/
theorem test_shl_either :
    after (fun t => (t.reg .eax, t.flags.sf, t.draws))
        (machine Config.Params.default [] { of := true, sf := false, zf := false } [(.eax, 0xC0000000#32)] []
          (.shl (.imm 1#32) (.reg .eax))) = some (0x80000000#32, true, 1) ∧
    after (fun t => t.flags.of) (plain [(.eax, 0xC0000000#32)] [] (.shl (.imm 1#32) (.reg .eax)))
      = some false := by decide
/-- V3.26, V3.28. -/
theorem test_shr_of :
    after (fun t => (t.reg .eax, t.flags)) (plain [(.eax, 0x80000000#32)] [] (.shr (.imm 1#32) (.reg .eax)))
      = some (0x40000000#32, { of := true, sf := false, zf := false }) ∧
    after (fun t => (t.reg .eax, t.flags))
        (machine Config.Params.default [] { of := true, sf := true, zf := false } [(.eax, 0xFFFFFFFF#32)] []
          (.shr (.imm 31#32) (.reg .eax)))
      = some (1#32, { of := true, sf := false, zf := false }) := by decide
/-- V3.30. -/
theorem test_shr_zero_count :
    after (fun t => (t.reg .eax, t.flags))
        (machine Config.Params.default [] { of := false, sf := true, zf := true } [(.eax, 0xF0000000#32)] []
          (.shr (.imm 0#32) (.reg .eax)))
      = some (0xF0000000#32, { of := false, sf := true, zf := true }) := by decide
/-- V4.3. -/
theorem test_setb_low_byte :
    after (fun t => t.reg .ebx) (plain [(.ebx, 0xFFFFFFFF#32)] [] (.setb .notZero (.reg .ebx)))
      = some 0xFFFFFF01#32 := by decide
/-- V4.9. -/
theorem test_setb_memory :
    after (fun t => (readWord t.mem 0xFFFFFFE8#32, t.flags))
        (machine Config.Params.default [] { of := true, sf := true, zf := false } [(.ebp, 0xFFFFFFF0#32)]
          [(0xFFFFFFE8#32, 0xAABBCCDD#32)] (.setb .sgt (at_ .ebp 0xFFFFFFF8#32)))
      = some (0xAABBCC01#32, { of := true, sf := true, zf := false }) := by decide
/-- V7.5. -/
theorem test_lea_negative_scale :
    after (fun t => t.reg .edi)
        (plain [(.esi, 3#32)] []
          (.lea (.ind { base := none, index := some (.esi, 0xFFFFFFFC#32), disp := some (.word 0x100#32) })
            (.reg .edi)))
      = some 0xF4#32 := by decide
/-- V7.6. -/
theorem test_lea_label_wraps :
    after (fun t => t.reg .edi)
        (machine Config.Params.default [(1, 0xFFFFF000#32)] clear [(.esi, 0x80000001#32)] []
          (.lea (.ind { base := none, index := some (.esi, 3#32), disp := some (.label 1) }) (.reg .edi)))
      = some 0x7FFFF003#32 := by decide
/-- V7.13. -/
theorem test_mov_to_own_address :
    after (fun t => readWord t.mem 0xFFFFF0F0#32)
        (plain [(.eax, 0xFFFFF0F0#32)] [] (.mov (.reg .eax) (at_ .eax 0#32))) = some 0xFFFFF0F0#32 := by decide
/-- V7.17, V7.15. -/
theorem test_mov_faults :
    outcome (plain [(.ebx, 9#32)] [] (.mov (.reg .ebx) (abs_ 0xFFFFEFFC#32)))
      = some (.faulted (.memFault 0xFFFFEFFC#32), 0x00001000#32, 0xFFFFFFFC#32) ∧
    outcome (plain [(.eax, 0xFFFFF002#32)] [] (.mov (at_ .eax 0#32) (.reg .ebx)))
      = some (.faulted (.memFault 0xFFFFF002#32), 0x00001000#32, 0xFFFFFFFC#32) := by decide
/-- V7.22: ESP - 4 wraps to the top word. -/
theorem test_push_wraps :
    after (fun t => (t.reg .esp, readWord t.mem 0xFFFFFFFC#32)) (plain [(.esp, 0#32)] [] (.push (.imm 0xFFFFFFFF#32)))
      = some (0xFFFFFFFC#32, 0xFFFFFFFF#32) := by decide
/-- V7.36 under both policies, V7.28 under the default. -/
theorem test_push_esp_operand :
    after (fun t => readWord t.mem 0xFFFFFFEC#32)
        (machine (withEsp .sequential) [] clear [(.esp, 0xFFFFFFF0#32)]
          [(0xFFFFFFF0#32, 0xAA#32), (0xFFFFFFF4#32, 0xBB#32)] (.push (at_ .esp 4#32))) = some 0xAA#32 ∧
    after (fun t => readWord t.mem 0xFFFFFFEC#32)
        (machine (withEsp .ia32Order) [] clear [(.esp, 0xFFFFFFF0#32)]
          [(0xFFFFFFF0#32, 0xAA#32), (0xFFFFFFF4#32, 0xBB#32)] (.push (at_ .esp 4#32))) = some 0xBB#32 ∧
    outcome (plain [(.esp, 0xFFFFFFF8#32)] [] (.push (.reg .esp)))
      = some (.faulted (.illFormed .mentionsEsp), 0x00001000#32, 0xFFFFFFF8#32) := by decide
/-- V7.33: the stack read succeeds, the store faults, ESP is not incremented. -/
theorem test_pop_fault_is_precise :
    outcome (plain [(.esp, 0xFFFFFFF0#32), (.edi, 0xFFFFF001#32)] [(0xFFFFFFF0#32, 1#32)] (.pop (at_ .edi 0#32)))
      = some (.faulted (.memFault 0xFFFFF001#32), 0x00001000#32, 0xFFFFFFF0#32) := by decide
/-- V7.37, V7.38 under both policies. -/
theorem test_pop_esp_operand :
    after (fun t => t.reg .esp)
        (machine (withEsp .sequential) [] clear [(.esp, 0xFFFFFFF0#32)] [(0xFFFFFFF0#32, 0xFFFFFF00#32)]
          (.pop (.reg .esp))) = some 0xFFFFFF04#32 ∧
    after (fun t => t.reg .esp)
        (machine (withEsp .ia32Order) [] clear [(.esp, 0xFFFFFFF0#32)] [(0xFFFFFFF0#32, 0xFFFFFF00#32)]
          (.pop (.reg .esp))) = some 0xFFFFFF00#32 ∧
    after (fun t => readWord t.mem 0xFFFFFFF8#32)
        (machine (withEsp .sequential) [] clear [(.esp, 0xFFFFFFF0#32)] [(0xFFFFFFF0#32, 7#32)]
          (.pop (at_ .esp 8#32))) = some 7#32 ∧
    after (fun t => readWord t.mem 0xFFFFFFFC#32)
        (machine (withEsp .ia32Order) [] clear [(.esp, 0xFFFFFFF0#32)] [(0xFFFFFFF0#32, 7#32)]
          (.pop (at_ .esp 8#32))) = some 7#32 := by decide
/-- V5.1, V5.6: the first operand is the subtrahend. -/
theorem test_cmp_order :
    after (fun t => (t.reg .eax, t.flags)) (plain [(.eax, 3#32)] [] (.cmp (.imm 10#32) (.reg .eax)))
      = some (3#32, { of := false, sf := true, zf := false }) ∧
    after (fun t => t.flags) (plain [(.eax, 3#32)] [] (.cmp (.reg .eax) (.imm 10#32))) = some clear := by decide
/-- V5.10, V5.11. -/
theorem test_cmp_minInt :
    after (fun t => t.flags) (plain [(.eax, 0x80000000#32)] [] (.cmp (.imm 0x80000000#32) (.reg .eax)))
      = some { of := true, sf := false, zf := true } ∧
    after (fun t => t.flags)
        (machine (withSub .trueOverflow) [] clear [(.eax, 0x80000000#32)] []
          (.cmp (.imm 0x80000000#32) (.reg .eax)))
      = some { of := false, sf := false, zf := true } := by decide
/-- V8.3. -/
theorem test_jmp_table :
    after (fun t => (t.pc, t.reg .esp))
        (machine Config.Params.default [(1, 0xFFFFF100#32)] clear [(.ebx, 1#32)] [(0xFFFFF104#32, 0x1010#32)]
          (.jmp (.ind { base := none, index := some (.ebx, 4#32), disp := some (.label 1) })))
      = some (0x1010#32, 0xFFFFFFFC#32) := by decide
/-- V8.8: the target is read before its word is overwritten. -/
theorem test_call_reads_target_first :
    after (fun t => (t.pc, t.reg .esp, readWord t.mem 0xFFFFFFEC#32))
        (plain [(.ebx, 0xFFFFFFEC#32), (.esp, 0xFFFFFFF0#32)] [(0xFFFFFFEC#32, 0x1080#32)] (.call (at_ .ebx 0#32)))
      = some (0x1080#32, 0xFFFFFFEC#32, 0x1004#32) := by decide
/-- V7.39 under both policies. -/
theorem test_call_esp_operand :
    after (fun t => t.pc) (machine (withEsp .sequential) [] clear [(.esp, 0xFFFFFFF8#32)] [] (.call (.reg .esp)))
      = some 0xFFFFFFF4#32 ∧
    after (fun t => t.pc) (machine (withEsp .ia32Order) [] clear [(.esp, 0xFFFFFFF8#32)] [] (.call (.reg .esp)))
      = some 0xFFFFFFF8#32 := by decide
/-- 60_exceptions.md R142 under `Sequential`: the slot at 0xFFFFEFFC is not valid, and the operand's fault,
at its own address, is the one reported; with a good operand the slot's is. -/
theorem test_call_operand_fault_first :
    outcome (machine (withEsp .sequential) [] clear [(.esp, 0xFFFFF000#32)] [] (.call (abs_ 2#32)))
      = some (.faulted (.memFault 2#32), 0x00001000#32, 0xFFFFF000#32) ∧
    outcome (machine (withEsp .sequential) [] clear [(.esp, 0xFFFFF000#32)] [] (.call (.imm 0x1080#32)))
      = some (.faulted (.memFault 0xFFFFEFFC#32), 0x00001000#32, 0xFFFFF000#32) := by decide
/-- 44_control_flow.md R122: under `Sequential` the operand is evaluated after the push, so at V8.8's address it
reads the return address. -/
theorem test_call_reads_return_address :
    after (fun t => t.pc)
        (machine (withEsp .sequential) [] clear [(.ebx, 0xFFFFFFEC#32), (.esp, 0xFFFFFFF0#32)]
          [(0xFFFFFFEC#32, 0x1080#32)] (.call (at_ .ebx 0#32))) = some 0x1004#32 := by decide
/-- 20_memory.md R41: `next` is the layout's, here 7 after the instruction, for the advance (10_state.md
R14), a J not taken (44_control_flow.md R124) and the address Call pushes (R122). -/
theorem test_next_is_the_layouts :
    after (fun t => t.pc) (withNext 0x1007#32 (plain [] [] (.mov (.imm 1#32) (.reg .eax)))) = some 0x1007#32 ∧
    after (fun t => t.pc)
        (withNext 0x1007#32 (machine Config.Params.default [(1, 0x1000#32)] clear [] [] (.j .eq (.lbl 1))))
      = some 0x1007#32 ∧
    after (fun t => (t.pc, readWord t.mem 0xFFFFFFF8#32))
        (withNext 0x1007#32 (plain [] [] (.call (.imm 0x2000#32)))) = some (0x2000#32, 0x1007#32) := by decide
/-- V8.11: the outermost return. -/
theorem test_ret_to_halt :
    outcome (plain [(.esp, 0xFFFFFFFC#32)] [(0xFFFFFFFC#32, 0#32)] .ret) = some (.running, 0#32, 0#32) := by decide
/-- V8.12. -/
theorem test_ret_unaligned :
    outcome (plain [(.esp, 0xFFFFFFFE#32)] [] .ret)
      = some (.faulted (.memFault 0xFFFFFFFE#32), 0x00001000#32, 0xFFFFFFFE#32) := by decide
/-- V8.13, V8.14. -/
theorem test_j_taken_or_not :
    after (fun t => t.pc)
        (machine Config.Params.default [(1, 0x2004#32)] { of := false, sf := true, zf := false } [] []
          (.j .slt (.lbl 1))) = some 0x2004#32 ∧
    after (fun t => t.pc)
        (machine Config.Params.default [(1, 0x2004#32)] { of := false, sf := true, zf := false } [] []
          (.j .sge (.lbl 1))) = some 0x1004#32 := by decide
/-- V8.16, V8.17. -/
theorem test_fetch :
    outcome ((plain [] [] .ret).setPc 0#32) = some (.halted, 0#32, 0xFFFFFFFC#32) ∧
    outcome ((plain [] [] .ret).setPc 0x2000#32)
      = some (.faulted (.fetchFault 0x2000#32), 0x2000#32, 0xFFFFFFFC#32) := by decide
/-- 95_test_vectors.md 2.6, the columns Eq, NotEq, Slt, Sge, Sle, Sgt. -/
theorem test_condition_codes :
    [CondCode.eq, .notEq, .slt, .sge, .sle, .sgt].map (fun cc =>
      [cond { of := false, sf := false, zf := false } cc, cond { of := false, sf := false, zf := true } cc,
        cond { of := false, sf := true, zf := false } cc, cond { of := false, sf := true, zf := true } cc,
        cond { of := true, sf := false, zf := false } cc, cond { of := true, sf := false, zf := true } cc,
        cond { of := true, sf := true, zf := false } cc, cond { of := true, sf := true, zf := true } cc])
      = [[false, true, false, true, false, true, false, true],
        [true, false, true, false, true, false, true, false],
        [false, false, true, true, true, true, false, false],
        [true, true, false, false, false, false, true, true],
        [false, true, true, true, true, true, false, true],
        [true, false, false, false, false, false, true, false]] := by decide

/-! ## Witnesses: for each statement with hypotheses, a state and operands that meet them together -/

/-- An Ind whose address is not valid, and one that is the topmost word. -/
def badInd : Operand := abs_ 0xFFFFEFFC#32
def topInd : Operand := abs_ 0xFFFFFFFC#32

/-- An instruction of this form completes in this state. -/
def Completes (i : Instr) (s : State) : Prop := ∃ t, exec i s = .next t

theorem completes {i : Instr} {s : State} (h : (nextOf (exec i s)).isSome = true) : Completes i s :=
  next_of_isSome h

theorem steps {s : State} (h : (nextOf (step s)).isSome = true) : ∃ t, step s = .next t := next_of_isSome h

/-- The hypotheses of a rule with one DEST: ill-formed; faulting; a register and the last valid word. -/
abbrev UnaryWitness (mk : Operand → Instr) : Prop :=
  illFormed State.reset (mk (.imm 5#32)) = some .destNotLocation ∧
  (illFormed State.reset (mk badInd) = none ∧ value State.reset badInd = .error (.memFault 0xFFFFEFFC#32)) ∧
  (illFormed State.reset (mk (.reg .eax)) = none ∧ value State.reset (.reg .eax) = .ok 0x01010101#32) ∧
  (illFormed State.reset (mk topInd) = none ∧ value State.reset topInd = .ok 0#32)

/-- The hypotheses of a rule with SRC and DEST: ill-formed; SRC faults; DEST faults; both readable. -/
abbrev BinaryWitness (mk : Operand → Operand → Instr) : Prop :=
  illFormed State.reset (mk topInd badInd) = some .twoIndirect ∧
  (illFormed State.reset (mk badInd (.reg .eax)) = none ∧
    value State.reset badInd = .error (.memFault 0xFFFFEFFC#32)) ∧
  (illFormed State.reset (mk (.reg .eax) badInd) = none ∧ value State.reset (.reg .eax) = .ok 0x01010101#32) ∧
  (illFormed State.reset (mk (.imm 1#32) topInd) = none ∧ value State.reset (.imm 1#32) = .ok 1#32 ∧
    value State.reset topInd = .ok 0#32)

/-- The hypotheses of a shift's rule: ill-formed; count 32; DEST faults at count 0; counts 0, 1, 31. -/
abbrev ShiftWitness (mk : Operand → Operand → Instr) : Prop :=
  illFormed State.reset (mk (.reg .edx) (.reg .eax)) = some .badAmount ∧
  (illFormed State.reset (mk (.imm 32#32) (.reg .eax)) = none ∧
    shiftCount State.reset 32#32 = .error (.shiftCountFault 32#32)) ∧
  (illFormed State.reset (mk (.imm 0#32) badInd) = none ∧ shiftCount State.reset 0#32 = .ok 0 ∧
    value State.reset badInd = .error (.memFault 0xFFFFEFFC#32)) ∧
  (illFormed State.reset (mk (.imm 31#32) (.reg .eax)) = none ∧ shiftCount State.reset 1#32 = .ok 1 ∧
    shiftCount State.reset 31#32 = .ok 31 ∧ value State.reset (.reg .eax) = .ok 0x01010101#32)

theorem witness_NegRule : UnaryWitness .neg := by decide
theorem witness_NotRule : UnaryWitness .not := by decide
theorem witness_SetbRule : UnaryWitness (.setb .sgt) := by decide
theorem witness_AddRule : BinaryWitness .add := by decide
theorem witness_SubRule : BinaryWitness .sub := by decide
theorem witness_AndRule : BinaryWitness .and := by decide
theorem witness_OrRule : BinaryWitness .or := by decide
theorem witness_XorRule : BinaryWitness .xor := by decide
theorem witness_CmpRule : BinaryWitness .cmp := by decide
theorem witness_SarRule : ShiftWitness .sar := by decide
theorem witness_ShrRule : ShiftWitness .shr := by decide
/-- Also a DEST with equal and one with different top bits, under each `Shl1OfPolicy`. -/
theorem witness_ShlRule :
    ShiftWitness .shl ∧ (0xC0000000#32).getLsbD 31 = (0xC0000000#32).getLsbD 30 ∧
    (0x80000000#32).getLsbD 31 ≠ (0x80000000#32).getLsbD 30 ∧ State.reset.params.shl1Of = .either ∧
    (withShl .unchanged).shl1Of = .unchanged ∧ (withShl .cleared).shl1Of = .cleared := by decide
theorem witness_ImulRule :
    illFormed State.reset (.imul (.imm 2#32) topInd) = some .imulDestNotReg ∧
    (illFormed State.reset (.imul badInd (.reg .eax)) = none ∧
      value State.reset badInd = .error (.memFault 0xFFFFEFFC#32)) ∧
    (illFormed State.reset (.imul topInd (.reg .eax)) = none ∧ value State.reset topInd = .ok 0#32) := by decide
theorem witness_LeaRule :
    illFormed State.reset (.lea topInd topInd) = some .leaDestNotReg ∧
    illFormed State.reset (.lea (abs_ 3#32) (.reg .esp)) = none := by decide
theorem witness_MovRule :
    illFormed State.reset (.mov topInd badInd) = some .twoIndirect ∧
    (illFormed State.reset (.mov badInd (.reg .eax)) = none ∧
      value State.reset badInd = .error (.memFault 0xFFFFEFFC#32)) ∧
    (illFormed State.reset (.mov (.imm 1#32) badInd) = none ∧ value State.reset (.imm 1#32) = .ok 1#32) ∧
    writable State.reset topInd = true := by decide
theorem witness_MovRule_store : store State.reset badInd 1#32 = .error (.memFault 0xFFFFEFFC#32) := rfl
/-- Under the default policy and under `Sequential`; the slot valid, at the lower edge invalid. -/
theorem witness_PushRule :
    illFormed State.reset (.push (.reg .esp)) = some .mentionsEsp ∧
    (illFormed State.reset (.push badInd) = none ∧ State.reset.params.espOperand ≠ .sequential ∧
      value State.reset badInd = .error (.memFault 0xFFFFEFFC#32)) ∧
    (illFormed State.reset (.push (.imm 1#32)) = none ∧
      validAddr State.reset.params (State.reset.reg .esp - 4#32) = true) ∧
    (let s := State.reset.setReg .esp 0xFFFFF000#32;
      illFormed s (.push (.imm 1#32)) = none ∧ validAddr s.params (s.reg .esp - 4#32) = false) ∧
    (let s := machine (withEsp .sequential) [] clear [] [] .ret;
      illFormed s (.push (.reg .esp)) = none ∧ s.params.espOperand = .sequential ∧
      validAddr s.params (s.reg .esp - 4#32) = true) := by decide
theorem witness_PopRule :
    illFormed State.reset (.pop (.reg .esp)) = some .mentionsEsp ∧
    (let s := State.reset.setReg .esp 0#32;
      illFormed s (.pop (.reg .eax)) = none ∧ validAddr s.params (s.reg .esp) = false) ∧
    (illFormed State.reset (.pop badInd) = none ∧ validAddr State.reset.params (State.reset.reg .esp) = true ∧
      State.reset.params.espOperand ≠ .ia32Order ∧ writable State.reset badInd = false ∧
      writable State.reset topInd = true) ∧
    (let s := machine (withEsp .ia32Order) [] clear [(.esp, 0xFFFFFFF8#32)] [] .ret;
      illFormed s (.pop (at_ .esp 0#32)) = none ∧ validAddr s.params (s.reg .esp) = true ∧
      s.params.espOperand = .ia32Order ∧ writable (s.setReg .esp (s.reg .esp + 4#32)) (at_ .esp 0#32) = true ∧
      writable (s.setReg .esp (s.reg .esp + 4#32)) (at_ .esp 1#32) = false) := by decide
theorem witness_JmpRule :
    illFormed State.reset (.jmp (.lbl 7)) = some .unresolvedLabel ∧
    (illFormed State.reset (.jmp badInd) = none ∧ value State.reset badInd = .error (.memFault 0xFFFFEFFC#32)) ∧
    (illFormed State.reset (.jmp topInd) = none ∧ value State.reset topInd = .ok 0#32) := by decide
theorem witness_CallRule :
    illFormed State.reset (.call (.reg .esp)) = some .mentionsEsp ∧
    (illFormed State.reset (.call badInd) = none ∧ State.reset.params.espOperand ≠ .sequential ∧
      value State.reset badInd = .error (.memFault 0xFFFFEFFC#32)) ∧
    (illFormed State.reset (.call topInd) = none ∧ value State.reset topInd = .ok 0#32 ∧
      validAddr State.reset.params (State.reset.reg .esp - 4#32) = true) ∧
    (let s := State.reset.setReg .esp 0xFFFFF000#32;
      illFormed s (.call topInd) = none ∧ value s topInd = .ok 0#32 ∧
      validAddr s.params (s.reg .esp - 4#32) = false) ∧
    (let s := machine (withEsp .sequential) [] clear [] [] .ret;
      let view := s.setReg .esp (s.reg .esp - 4#32);
      s.params.espOperand = .sequential ∧
      (illFormed s (.call badInd) = none ∧ value view badInd = .error (.memFault 0xFFFFEFFC#32)) ∧
      (illFormed s (.call (.reg .esp)) = none ∧ value view (.reg .esp) = .ok 0xFFFFFFF8#32 ∧
        validAddr s.params (s.reg .esp - 4#32) = true)) ∧
    (let s := machine (withEsp .sequential) [] clear [(.esp, 0xFFFFF000#32)] [] .ret;
      illFormed s (.call (.imm 1#32)) = none ∧ s.params.espOperand = .sequential ∧
      validAddr s.params (s.reg .esp - 4#32) = false) := by decide
theorem witness_RetRule :
    validAddr State.reset.params (State.reset.reg .esp) = true ∧
    validAddr State.reset.params ((State.reset.setReg .esp 0#32).reg .esp) = false := by decide
/-- The flags are all set at reset, so Eq holds and NotEq does not. -/
theorem witness_ConditionalJumpRule :
    illFormed State.reset (.j .eq (.reg .eax)) = some .targetNotLabel ∧
    (let s := machine Config.Params.default [(1, 0x2000#32)] clear [] [] .ret;
      illFormed s (.j .eq (.lbl 1)) = none ∧ cond s.flags .eq = false ∧ cond s.flags .notEq = true ∧
      lookup s.pc.toNat s.code = some { instr := .ret, next := 0x1004#32 }) := by decide

/-- Both sides of the table, for one term. -/
theorem witness_WellFormedTermsAreTheTable :
    illFormed State.reset (.pop (.reg .eax)) = none ∧ illFormed State.reset (.pop (.reg .esp)) ≠ none := by decide
/-- A term that breaks two checks, (1) and (9), and one that breaks none. -/
theorem witness_ReportedReasonIsTheFirstBrokenCheck :
    (Broken State.reset (.mov (.imm 1#32) (.lbl 7)) .destNotLocation ∧
      Broken State.reset (.mov (.imm 1#32) (.lbl 7)) .unresolvedLabel ∧
      illFormed State.reset (.mov (.imm 1#32) (.lbl 7)) = some .destNotLocation) ∧
    illFormed State.reset .ret = none :=
  ⟨⟨⟨.lbl 7, .inl rfl, .inr ⟨7, rfl⟩⟩, ⟨7, by decide, .inl (by decide)⟩, by decide⟩, by decide⟩
/-- A label resolved and one not; valid addresses at both edges, an unaligned one, one below, one above. -/
theorem witness_OperandValues :
    (let s := machine { Config.Params.default with memHi := 0xFFFFFFF8#32 } [(1, 0x2000#32)] clear [] [] .ret;
      s.labelAddr 1 = some 0x2000#32 ∧ s.labelAddr 2 = none ∧
      s.params.memLo = 0xFFFFF000#32 ∧ s.params.memHi = 0xFFFFFFF8#32) ∧
    (0xFFFFF000#32).toNat % 4 = 0 ∧ (0xFFFFF002#32).toNat % 4 ≠ 0 ∧
    (0xFFFFEFFC#32).toNat < (0xFFFFF000#32).toNat ∧ (0xFFFFFFF8#32).toNat < (0xFFFFFFFC#32).toNat := by decide
theorem witness_OperandValues_address :
    effAddr State.reset { base := none, index := none, disp := some (.word 0xFFFFF000#32) } = .ok 0xFFFFF000#32 :=
  rfl
/-- Each of the three displacement forms. -/
theorem witness_EffectiveAddressFormula :
    (let m : Ind := { base := some .esp, index := none, disp := none }; m.disp = none) ∧
    (let m : Ind := { base := none, index := some (.esi, 3#32), disp := some (.word 4#32) };
      m.disp = some (.word 4#32)) ∧
    (machine Config.Params.default [(1, 0x2000#32)] clear [] [] .ret).labelAddr 1 = some 0x2000#32 := by decide
theorem witness_StoreWritesTheLocation :
    validAddr State.reset.params 0xFFFFF000#32 = true ∧ validAddr State.reset.params 0xFFFFFFFC#32 = true ∧
    validAddr State.reset.params 0xFFFFEFFC#32 = false ∧ validAddr State.reset.params 0xFFFFF002#32 = false := by
  decide
/-- The edges of the window, both sides, and an unaligned address. -/
theorem witness_MemoryReadsAndWrites :
    ((0xFFFFF000#32).toNat % 4 = 0 ∧ State.reset.params.memLo.toNat ≤ (0xFFFFF000#32).toNat ∧
      (0xFFFFF000#32).toNat ≤ State.reset.params.memHi.toNat) ∧
    ((0xFFFFFFFC#32).toNat % 4 = 0 ∧ State.reset.params.memLo.toNat ≤ (0xFFFFFFFC#32).toNat ∧
      (0xFFFFFFFC#32).toNat ≤ State.reset.params.memHi.toNat) ∧
    ¬ State.reset.params.memLo.toNat ≤ (0xFFFFEFFC#32).toNat ∧ ¬ (0xFFFFF001#32).toNat % 4 = 0 := by decide
theorem witness_ShiftCountByPolicy :
    State.reset.params.shiftCount = .fault ∧ 31 < (32#32).toNat ∧ (31#32).toNat ≤ 31 ∧
    (machine mask5 [] clear [] [] .ret).params.shiftCount = .mask5 := by decide

/-- Cmp completes, and its operands fall under each clause. -/
theorem witness_CompareThenCondition :
    Completes (.cmp (.imm 0x80000000#32) (.reg .eax)) State.reset ∧
    Completes (.cmp (.imm 0x80000000#32) (.imm 0xFFFFFFFB#32)) State.reset ∧
    Completes (.cmp (.imm 0x80000000#32) (.imm 0xFFFFFFFB#32))
      (machine (withSub .trueOverflow) [] clear [] [] .ret) ∧
    (0x01010101#32).msb = false ∧ (0xFFFFFFFB#32).msb = true ∧ State.reset.params.subMinIntOf = .source ∧
    (withSub .trueOverflow).subMinIntOf = .trueOverflow :=
  ⟨completes (by decide), completes (by decide), completes (by decide), by decide⟩
theorem witness_OverflowIsSignedOverflow :
    value State.reset (.imm 0x80000000#32) = .ok 0x80000000#32 ∧ value State.reset topInd = .ok 0#32 ∧
    Completes (.neg topInd) State.reset ∧ Completes (.add (.imm 0x80000000#32) topInd) State.reset ∧
    Completes (.sub (.imm 0x80000000#32) topInd) State.reset :=
  ⟨rfl, by decide, completes (by decide), completes (by decide), completes (by decide)⟩

/-- A register DEST and an Ind DEST, each of an instruction that writes only that. -/
theorem witness_OneLocationFrame :
    (WritesOnly (.neg (.reg .eax)) (.reg .eax) ∧ Completes (.neg (.reg .eax)) State.reset) ∧
    (WritesOnly (.shl (.imm 1#32) topInd) topInd ∧ Completes (.shl (.imm 1#32) topInd) State.reset) :=
  ⟨⟨rfl, completes (by decide)⟩, rfl, completes (by decide)⟩
theorem witness_RegisterOnlyFrame :
    Completes (.imul topInd (.reg .eax)) State.reset ∧ Completes (.lea topInd (.reg .esp)) State.reset :=
  ⟨completes (by decide), completes (by decide)⟩
theorem witness_PushCallFrame :
    Completes (.push (.reg .eax)) State.reset ∧ Completes (.call topInd) State.reset :=
  ⟨completes (by decide), completes (by decide)⟩
/-- A register and an Ind DEST; ESP itself as DEST under `IA32Order`. -/
theorem witness_PopFrame :
    Completes (.pop (.reg .eax)) State.reset ∧ Completes (.pop topInd) State.reset ∧
    Completes (.pop (.reg .esp)) (machine (withEsp .ia32Order) [] clear [] [] .ret) :=
  ⟨completes (by decide), completes (by decide), completes (by decide)⟩
theorem witness_NoStoreFrame :
    Completes (.cmp topInd (.reg .eax)) State.reset ∧ Completes (.jmp topInd) State.reset ∧
    Completes (.j .eq (.lbl 1)) (machine Config.Params.default [(1, 0x2000#32)] clear [] [] .ret) ∧
    Completes .ret State.reset :=
  ⟨completes (by decide), completes (by decide), completes (by decide), completes (by decide)⟩
theorem witness_FlaglessInstructionsKeepFlags :
    WritesNoFlag (.mov (.imm 0#32) topInd) ∧ Completes (.mov (.imm 0#32) topInd) State.reset :=
  ⟨trivial, completes (by decide)⟩
/-- Without and with an instruction at EIP, there with a `next` that is not EIP + 4. -/
theorem witness_OnlyTransfersLeaveTheSequence :
    ¬ IsTransfer (.push (.reg .eax)) ∧ Completes (.push (.reg .eax)) State.reset ∧
    (let s := withNext 0x1007#32 (plain [] [] (.push (.reg .eax)));
      Completes (.push (.reg .eax)) s ∧
      lookup s.pc.toNat s.code = some { instr := .push (.reg .eax), next := 0x1007#32 }) :=
  ⟨id, completes (by decide), completes (by decide), by decide⟩
theorem witness_PushThenPopMovesTheValue :
    Completes (.push (.reg .eax)) State.reset ∧ (Operand.reg .eax).mentionsEsp = false ∧
    value State.reset (.reg .eax) = .ok 0x01010101#32 ∧ Reg.ebx ≠ .esp :=
  ⟨completes (by decide), by decide⟩
/-- As for the advance. -/
theorem witness_CallThenRetReturns :
    Completes (.call topInd) State.reset ∧
    (let s := withNext 0x1007#32 (plain [] [] (.call topInd));
      Completes (.call topInd) s ∧
      lookup s.pc.toNat s.code = some { instr := .call topInd, next := 0x1007#32 }) :=
  ⟨completes (by decide), completes (by decide), by decide⟩

/-- A running state with an instruction that completes, and one with an instruction that faults. -/
theorem witness_StepRunsTheInstructionAtEip :
    (let s := plain [] [] (.push (.imm 1#32));
      s.status = .running ∧ s.pc ≠ s.params.haltAddr ∧
      lookup s.pc.toNat s.code = some { instr := .push (.imm 1#32), next := 0x1004#32 } ∧
      Completes (.push (.imm 1#32)) s) ∧
    (let s := plain [] [] (.push badInd);
      s.status = .running ∧ s.pc ≠ s.params.haltAddr ∧
      lookup s.pc.toNat s.code = some { instr := .push badInd, next := 0x1004#32 } ∧
      exec (.push badInd) s = .fault (.memFault 0xFFFFEFFC#32)) :=
  ⟨⟨rfl, by decide, rfl, completes (by decide)⟩, rfl, by decide, rfl, fault_of_isSome _ (by decide)⟩
theorem witness_FetchFaultWhereNoInstructionStands :
    State.reset.status = .running ∧ State.reset.pc ≠ State.reset.params.haltAddr ∧
    lookup State.reset.pc.toNat State.reset.code = none := by decide
theorem witness_RunEndsAtHaltAddress :
    let s := State.reset.setPc 0#32;
    s.status = .running ∧ s.pc = s.params.haltAddr := by decide
theorem witness_StoppedMachineHasNoStep :
    (State.reset.setStatus .halted).status ≠ .running ∧
    (State.reset.setStatus (.faulted (.memFault 0#32))).status ≠ .running := by decide
/-- A fetch fault, and a fault of an instruction. -/
theorem witness_FaultsArePrecise :
    (∃ t, step State.reset = .next t ∧ t.status = .faulted (.fetchFault 0x1000#32)) ∧
    (∃ t, step (plain [] [] (.push badInd)) = .next t ∧ t.status = .faulted (.memFault 0xFFFFEFFC#32)) := by
  refine ⟨⟨takeFault (.fetchFault 0x1000#32) State.reset, rfl, rfl⟩, ?_⟩
  exact ⟨takeFault (.memFault 0xFFFFEFFC#32) (plain [] [] (.push badInd)), rfl, rfl⟩
theorem witness_ProgramNeverChanges : ∃ t, step (plain [] [] (.push (.imm 1#32))) = .next t :=
  steps (by decide)
/-- The word pushed is what unlisted bytes read as: the store removes entries rather than adding them. -/
theorem witness_EveryStepKeepsTheStateWellFormed :
    (plain [] [(0xFFFFFFF8#32, 0#32)] (.push (.imm 0xA5A5A5A5#32))).wf ∧
    ∃ t, step (plain [] [(0xFFFFFFF8#32, 0#32)] (.push (.imm 0xA5A5A5A5#32))) = .next t :=
  ⟨by decide, steps (by decide)⟩
theorem witness_WellFormedProgramNeverIllFormed :
    (plain [] [] (.push badInd)).termsWf ∧ ∃ t, step (plain [] [] (.push badInd)) = .next t :=
  ⟨by decide, steps (by decide)⟩
theorem witness_DrawsReachOnlyImulAndShl :
    ¬ Draws Config.Params.default (.mov (.imm 1#32) (.reg .eax)) ∧
    ¬ Draws (withShl .unchanged) (.shl (.imm 1#32) (.reg .eax)) :=
  ⟨id, by show ¬ ((withShl .unchanged).shl1Of = .either); decide⟩

/-- A program under RL4 with a code label at its second instruction and a data label. -/
def sampleProgram : Program := programRL4 [([], .jmp (.lbl 1)), ([1], .ret)] [(2, 0xFFFFF000#32)]

/-- The same text under a layout that is not RL4, its second instruction below its first. -/
def otherProgram : Program where
  text := [{ addr := 0x1000#32, labels := [], instr := .jmp (.lbl 1) },
    { addr := 0x0FF3#32, labels := [1], instr := .ret }]
  last := 0x1001#32
  data := [(2, 0xFFFFF000#32)]

/-- With arbitrary values of ours. -/
theorem witness_EveryChoiceIsALaunchState :
    let s := State.launch Config.Params.default sampleProgram.code sampleProgram.labels RegFile.reset clear [];
    Config.Params.default.wf ∧ Memory.wf [] ∧ s.programWf ∧ s.termsWf ∧
    (lookup Config.Params.default.entry.toNat sampleProgram.code).isSome = true := by decide

/-- A line before the last, the last, and the data label. -/
theorem witness_LoadedProgramIsWellFormed :
    otherProgram.wf Config.Params.default ∧
    otherProgram.text[0]? = some { addr := 0x1000#32, labels := [], instr := .jmp (.lbl 1) } ∧
    otherProgram.text[1]? = some { addr := 0x0FF3#32, labels := [1], instr := .ret } ∧
    (2, 0xFFFFF000#32) ∈ otherProgram.data ∧ ∀ ln ∈ otherProgram.text, ln.addr ≠ 0x1004#32 := by decide

/-- 20_memory.md R41's values for instruction 1, written out by hand: 0x1004, followed by 0x1008. -/
theorem witness_ReferenceLayout :
    sampleProgram.wf Config.Params.default ∧
    lookup 0x1004 sampleProgram.code = some { instr := .ret, next := 0x1008#32 } ∧
    lookup 1 sampleProgram.labels = some 0x1004#32 := by decide

theorem witness_DecodeOfEncodeIsTheTerm :
    (Instr.lea (.ind { base := some .esp, index := some (.edi, 0xFFFFFFFF#32), disp := some (.label 4294967295) })
      (.reg .ebp)).shapeReason = none := by decide
theorem witness_DecodedBytesAreTheEncoding : decode [0x14#8, 0x00#8] = .ok (.ret, [0x00#8]) := by decide
theorem witness_UnassignedNumbersRefused :
    (0#8).toNat = 0 ∧ 21 < (22#8).toNat ∧ 21 < (255#8).toNat ∧ 8 ≤ (8#8).toNat ∧ 8 ≤ (255#8).toNat := by decide

end Sys2Proof.Tests
end

section
/-! PROOFS. The rules of the instructions that read a location and write it back, said once for each shape:
what the body has to be for the whole rule to follow. -/

namespace Sys2Proof.Proofs

open Sys2Proof.Machine Sys2Proof.Claims

/-! ## The location of a well-formed term -/

/-- A term whose location slot holds an Imm or a Lbl is ill-formed (30_encoding.md R70 reason 1). -/
theorem isLocation_of_wellFormed {s : State} {i : Instr} {o : Operand} (hi : illFormed s i = none)
    (ho : i.locationSlot = some o) : o.isLocation = true := by
  have hb := List.find?_eq_none.mp hi .destNotLocation (by decide)
  simpa [Instr.breaks, ho] using hb

/-- What can be read at a location can be written there. -/
theorem store_of_value {s : State} {o : Operand} {d : Word} (hl : o.isLocation = true)
    (hd : value s o = .ok d) (v : Word) : ∃ u, store s o v = .ok u :=
  store_of_writable s o v (writable_of_value s o d hl hd)

/-! ## The two shapes -/

/-- The shape of Neg, as `combine` is that of Add: read DEST, write it back, then the flags and EIP. -/
def readModifyWrite (s : State) (dst : Operand) (result : Word → Word) (flags : Word → Flags) :
    Except Fault State := do
  let d ← value s dst
  let t ← store s dst (result d)
  .ok (advance s (t.setFlags (flags d)))

/-- The rule of an instruction that is `readModifyWrite` of its location. -/
theorem unaryRule_of_readModifyWrite {mk : Operand → Instr} {result : State → Word → Word}
    {flags : State → Word → Flags} (hslot : ∀ dst, (mk dst).locationSlot = some dst)
    (hexec : ∀ s dst,
      exec (mk dst) s = runTerm s (mk dst) (readModifyWrite s dst (result s) (flags s))) :
    UnaryRule mk result flags := by
  intro s dst
  rw [hexec]
  refine ⟨fun r hr => runTerm_illFormed _ _ _ r hr, fun hi => ⟨fun f hf => ?_, fun d hd => ?_⟩⟩
  · exact runTerm_error _ _ _ f hi (by simp only [readModifyWrite, hf, error_bind])
  · obtain ⟨u, hu⟩ := store_of_value (isLocation_of_wellFormed hi (hslot dst)) hd (result s d)
    exact ⟨u, hu, runTerm_ok _ _ _ _ hi (by simp only [readModifyWrite, hd, hu, ok_bind, advance])⟩

/-- The rule of an instruction that is `combine` of its SRC and its location. -/
theorem binaryRule_of_combine {mk : Operand → Operand → Instr} {result : Word → Word → Word}
    {flags : State → Word → Word → Flags} (hslot : ∀ src dst, (mk src dst).locationSlot = some dst)
    (hexec : ∀ s src dst,
      exec (mk src dst) s = runTerm s (mk src dst) (combine s src dst result (flags s))) :
    BinaryRule mk result flags := by
  intro s src dst
  rw [hexec]
  refine ⟨fun r hr => runTerm_illFormed _ _ _ r hr,
    fun hi => ⟨fun f hf => ?_, fun v f hv hf => ?_, fun v d hv hd => ?_⟩⟩
  · exact runTerm_error _ _ _ f hi (by simp only [combine, hf, error_bind])
  · exact runTerm_error _ _ _ f hi (by simp only [combine, hv, hf, ok_bind, error_bind])
  · obtain ⟨u, hu⟩ := store_of_value (isLocation_of_wellFormed hi (hslot src dst)) hd (result v d)
    exact ⟨u, hu, runTerm_ok _ _ _ _ hi ((combine_ok _ _ _ _ _ _).mpr ⟨v, d, u, hv, hd, hu, rfl⟩)⟩

end Sys2Proof.Proofs
end

section
/-! PROOFS. Neg and Add (40_arithmetic.md R80, R81): their result and flags as word arithmetic, and their
rules. -/

namespace Sys2Proof.Proofs

open Sys2Proof.Machine

/-- `SetSZ` with its tests as propositions (10_state.md R16). -/
theorem flagsOf_eq (r : Word) (overflow : Bool) :
    flagsOf r overflow = { of := overflow, sf := r.msb, zf := decide (r = 0#32) } := by
  rw [flagsOf, Bool.beq_eq_decide_eq]

/-- A negation is 0 exactly when its operand is, so ZF is about DEST itself. -/
theorem flagsNeg_eq (d : Word) :
    flagsNeg d = { of := decide (d = 0x80000000#32), sf := (-d).msb, zf := decide (d = 0#32) } := by
  simp only [flagsNeg, BitVec.zero_sub, flagsOf_eq, Bool.beq_eq_decide_eq, BitVec.neg_eq_zero_iff]

/-- The sign of a 64-bit extension is the operand's own (`sext64_msb`), so OF is about the words. -/
theorem flagsAdd_eq (v d : Word) :
    flagsAdd v d = { of := decide (v.msb = d.msb ∧ (d + v).msb ≠ v.msb), sf := (d + v).msb,
                     zf := decide (d + v = 0#32) } := by
  simp only [flagsAdd, flagsOf_eq, sum32_eq, sext64_msb, bne, Bool.beq_eq_decide_eq, Bool.decide_and,
    decide_not, ne_eq]

/-- Settles O1: Neg is `readModifyWrite` with the negation and its flags. -/
theorem negRule : Obligations.NegRule := by
  refine unaryRule_of_readModifyWrite (fun _ => rfl) fun s dst => ?_
  simp only [exec, execNeg, readModifyWrite, flagsNeg_eq, BitVec.zero_sub]

/-- Settles O2: Add is `combine` with the wrapped sum and its flags. -/
theorem addRule : Obligations.AddRule := by
  refine binaryRule_of_combine (fun _ _ => rfl) fun s src dst => ?_
  simp only [exec, execAdd, combine, flagsAdd_eq, sum32_eq]

end Sys2Proof.Proofs
end

section
/-! PROOFS. Not, And, Or and Xor (41_logic.md R90 to R93): an instruction that writes no flag as a
`readModifyWrite`, the flags the other three share, and their rules. -/

namespace Sys2Proof.Proofs

open Sys2Proof.Machine Sys2Proof.Claims

/-! ## A location written without its flags -/

/-- Writing the flags a state already has changes nothing. -/
theorem setFlags_of_flags_eq {t : State} {f : Flags} (h : t.flags = f) : t.setFlags f = t := by
  subst h; rfl

/-- A store keeps the flags, so the body of an instruction that writes none is `readModifyWrite` with the
flags of before. -/
theorem readModifyWrite_same_flags (s : State) (dst : Operand) (result : Word → Word) :
    readModifyWrite s dst result (fun _ => s.flags) =
      (do let d ← value s dst; let t ← store s dst (result d); .ok (advance s t)) := by
  unfold readModifyWrite
  refine bind_congr fun d => ?_
  cases hu : store s dst (result d) with
  | error f => rfl
  | ok u => simp only [ok_bind, setFlags_of_flags_eq (store_sameBut s u dst _ hu).flags]

/-- Settles O5: Not is `readModifyWrite` with the complement and the flags of before. -/
theorem notRule : Obligations.NotRule := by
  refine unaryRule_of_readModifyWrite (fun _ => rfl) fun s dst => ?_
  simp only [exec, execNot, readModifyWrite_same_flags, BitVec.allOnes_xor]

/-! ## The bitwise operations of two operands -/

/-- OF is 0 and SF and ZF are the result's (10_state.md R16). -/
theorem flagsLogic_eq (r : Word) : flagsLogic r = { of := false, sf := r.msb, zf := decide (r = 0#32) } :=
  flagsOf_eq r false

/-- The rule of an instruction that is `combine` with an operation `op` and the flags of its result. -/
theorem logicRule_of_combine {mk : Operand → Operand → Instr} {op : Word → Word → Word}
    (hslot : ∀ src dst, (mk src dst).locationSlot = some dst)
    (hexec : ∀ s src dst, exec (mk src dst) s = runTerm s (mk src dst)
      (combine s src dst (fun v d => op d v) fun v d => flagsLogic (op d v))) :
    BinaryRule mk (fun v d => op d v) fun _ v d =>
      { of := false, sf := (op d v).msb, zf := decide (op d v = 0#32) } := by
  refine binaryRule_of_combine hslot fun s src dst => ?_
  simp only [hexec, flagsLogic_eq]

/-- Settles O6: And is `combine` with the bitwise conjunction and its flags. -/
theorem andRule : Obligations.AndRule :=
  logicRule_of_combine (op := fun d v => d &&& v) (fun _ _ => rfl) fun _ _ _ => rfl

/-- Settles O7: Or is `combine` with the bitwise disjunction and its flags. -/
theorem orRule : Obligations.OrRule :=
  logicRule_of_combine (op := fun d v => d ||| v) (fun _ _ => rfl) fun _ _ _ => rfl

/-- Settles O8: Xor is `combine` with the bitwise exclusive or and its flags. -/
theorem xorRule : Obligations.XorRule :=
  logicRule_of_combine (op := fun d v => d ^^^ v) (fun _ _ => rfl) fun _ _ _ => rfl

end Sys2Proof.Proofs
end

section
/-! PROOFS. What well-formedness (30_encoding.md R70) gives a meaning: no check is broken, so every label is
resolved and the effective address of an Ind exists. -/

namespace Sys2Proof.Proofs

open Sys2Proof.Machine

/-- A well-formed term breaks no check; `hr` leaves out only the reason that no term can have. -/
theorem breaks_eq_false_of_wellFormed {s : State} {i : Instr} (hi : illFormed s i = none)
    (r : IllFormedReason)
    (hr : r ∈ IllFormedReason.ofShape ++ [IllFormedReason.unresolvedLabel, IllFormedReason.mentionsEsp]) :
    i.breaks s.params.espOperand s.resolved r = false :=
  Bool.eq_false_iff.mpr (List.find?_eq_none.mp hi r hr)

/-- R70 reason 9: each label a well-formed term uses has an address. -/
theorem labelAddr_of_wellFormed {s : State} {i : Instr} (hi : illFormed s i = none) {l : Label}
    (hl : l ∈ i.labels) : ∃ a, s.labelAddr l = some a := by
  have hb := breaks_eq_false_of_wellFormed hi .unresolvedLabel (by decide)
  have hres : s.resolved l = true := by simpa using List.any_eq_false.mp hb l hl
  exact Option.isSome_iff_exists.mp hres

/-- An effective address exists where the label of its displacement, if it has one, is resolved. -/
theorem effAddr_of_labelAddr {s : State} {m : Ind}
    (hl : ∀ l, m.disp = some (.label l) → ∃ a, s.labelAddr l = some a) : ∃ a, effAddr s m = .ok a := by
  have hdisp : ∃ d, dispValue s m.disp = .ok d := by
    cases hd : m.disp with
    | none => exact ⟨_, rfl⟩
    | some disp =>
      cases disp with
      | word w => exact ⟨w, rfl⟩
      | label l =>
        obtain ⟨a, ha⟩ := hl l hd
        exact ⟨a, by simp only [dispValue, ha]⟩
  obtain ⟨d, hd⟩ := hdisp
  exact ⟨_, bind_ok.mpr ⟨d, hd, rfl⟩⟩

/-- The effective address of an Ind operand of a well-formed term exists, valid or not. -/
theorem effAddr_of_wellFormed {s : State} {i : Instr} {m : Ind} (hi : illFormed s i = none)
    (hm : Operand.ind m ∈ i.operands) : ∃ a, effAddr s m = .ok a := by
  refine effAddr_of_labelAddr fun l hl => labelAddr_of_wellFormed hi ?_
  exact List.mem_flatMap.mpr ⟨.ind m, hm, by simp [Operand.labels, hl, Disp.labels]⟩

end Sys2Proof.Proofs
end

section
/-! PROOFS. Lea and Mov (43_data_movement.md R110, R111): the operand kinds of a well-formed Lea, and the two
rules. -/

namespace Sys2Proof.Proofs

open Sys2Proof.Machine

theorem isInd_iff (o : Operand) : o.isInd = true ↔ ∃ m, o = .ind m := by
  cases o <;> simp [Operand.isInd]

theorem isReg_iff (o : Operand) : o.isReg = true ↔ ∃ r, o = .reg r := by
  cases o <;> simp [Operand.isReg]

/-- R70 reasons 6 and 7: a well-formed Lea has an Ind and a register. -/
theorem lea_operands_of_wellFormed {s : State} {src dst : Operand} (hi : illFormed s (.lea src dst) = none) :
    (∃ m, src = .ind m) ∧ ∃ r, dst = .reg r := by
  have hsrc := breaks_eq_false_of_wellFormed hi .leaSourceNotInd (by decide)
  have hdst := breaks_eq_false_of_wellFormed hi .leaDestNotReg (by decide)
  simp only [Instr.breaks, Bool.not_eq_false'] at hsrc hdst
  exact ⟨(isInd_iff src).mp hsrc, (isReg_iff dst).mp hdst⟩

/-- Settles O13: well-formedness gives Lea its operand kinds and the effective address, and a register can
always be written. -/
theorem leaRule : Obligations.LeaRule := by
  intro s src dst
  refine ⟨fun r hr => runTerm_illFormed _ _ _ r hr, fun hi => ?_⟩
  obtain ⟨⟨m, rfl⟩, r, rfl⟩ := lea_operands_of_wellFormed hi
  obtain ⟨a, ha⟩ := effAddr_of_wellFormed hi (List.mem_cons_self : Operand.ind m ∈ [.ind m, .reg r])
  exact ⟨m, r, a, rfl, rfl, ha,
    runTerm_ok _ _ _ _ hi (by simp only [leaAddr, ha, store_reg, ok_bind, advance])⟩

/-- Settles O14: Mov answers as the value of SRC and then the store to DEST do, and a writable DEST can be
stored to. -/
theorem movRule : Obligations.MovRule := by
  intro s src dst
  refine ⟨fun r hr => runTerm_illFormed _ _ _ r hr,
    fun hi => ⟨fun f hf => ?_, fun v f hv hf => ?_, fun v hv hw => ?_⟩⟩
  · exact runTerm_error _ _ _ f hi (by simp only [hf, error_bind])
  · exact runTerm_error _ _ _ f hi (by simp only [hv, hf, ok_bind, error_bind])
  · obtain ⟨u, hu⟩ := store_of_writable s dst v hw
    exact ⟨u, hu, runTerm_ok _ _ _ _ hi (by simp only [hv, hu, ok_bind, advance])⟩

end Sys2Proof.Proofs
end

section
/-! PROOFS. Jmp, Ret and J (44_control_flow.md R121, R123, R124): the well-formed terms of Ret and J, the
fallthrough where an instruction stands, and the three rules. -/

namespace Sys2Proof.Proofs

open Sys2Proof.Machine

/-- Settles O18: Jmp answers as the value of SRC does. -/
theorem jmpRule : Obligations.JmpRule := by
  intro s src
  refine ⟨fun r hr => runTerm_illFormed _ _ _ r hr, fun hi => ⟨fun f hf => ?_, fun a ha => ?_⟩⟩
  · exact runTerm_error _ _ _ f hi (by simp only [hf, error_bind])
  · exact runTerm_ok _ _ _ _ hi (by simp only [ha, ok_bind])

/-- Every check of R70 is about an operand, and Ret has none. -/
theorem illFormed_ret (s : State) : illFormed s .ret = none := by
  refine List.find?_eq_none.mpr fun r _ => ?_
  cases r with
  | mentionsEsp => simp [Instr.breaks, Instr.stackOperand]
  | _ => exact Bool.false_ne_true

/-- Settles O20: Ret is never ill-formed, so it answers as the read at ESP does. -/
theorem retRule : Obligations.RetRule := by
  refine fun s => ⟨fun hv => ?_, fun hv => ?_⟩
  · have hread := (memRead_error s (s.reg .esp) _).mpr ⟨hv, rfl⟩
    exact runTerm_error _ _ _ _ (illFormed_ret s) (by simp only [hread, error_bind])
  · have hread := (memRead_ok s (s.reg .esp) _).mpr ⟨hv, rfl⟩
    exact runTerm_ok _ _ _ _ (illFormed_ret s) (by simp only [hread, ok_bind, espUp])

theorem isLbl_iff (o : Operand) : o.isLbl = true ↔ ∃ l, o = .lbl l := by
  cases o <;> simp [Operand.isLbl]

/-- R70 reasons 8 and 9: a well-formed J has a resolved label. -/
theorem j_target_of_wellFormed {s : State} {cc : CondCode} {target : Operand}
    (hi : illFormed s (.j cc target) = none) : ∃ l a, target = .lbl l ∧ s.labelAddr l = some a := by
  have ht := breaks_eq_false_of_wellFormed hi .targetNotLabel (by decide)
  simp only [Instr.breaks, Bool.not_eq_false'] at ht
  obtain ⟨l, rfl⟩ := (isLbl_iff target).mp ht
  obtain ⟨a, ha⟩ := labelAddr_of_wellFormed hi (List.mem_cons_self : l ∈ [l])
  exact ⟨l, a, rfl, ha⟩

/-- 20_memory.md R41: where an instruction stands at EIP, the following one is the layout's `next`. -/
theorem nextPc_of_fetched {s : State} {cell : CodeCell} (h : s.fetched = some cell) :
    s.nextPc = cell.next := by
  simp only [State.nextPc, h]

/-- A well-formed J completes, and the condition code chooses between the label and the fallthrough. -/
theorem exec_j_of_wellFormed {s : State} {cc : CondCode} {l : Label} {a : Word}
    (hi : illFormed s (.j cc (.lbl l)) = none) (ha : s.labelAddr l = some a) :
    exec (.j cc (.lbl l)) s = .next (s.setPc (if cond s.flags cc then a else s.nextPc)) :=
  runTerm_ok _ _ _ _ hi (by simp only [jumpTarget, value_lbl s l a ha, ok_bind])

/-- Settles O21: well-formedness gives J its target, and each value of the condition its address. -/
theorem conditionalJumpRule : Obligations.ConditionalJumpRule := by
  intro s cc target
  refine ⟨fun r hr => runTerm_illFormed _ _ _ r hr, fun hi => ?_⟩
  obtain ⟨l, a, rfl, ha⟩ := j_target_of_wellFormed hi
  have hexec := exec_j_of_wellFormed hi ha
  refine ⟨l, a, rfl, ha, fun htaken => ?_, fun hnot => ?_⟩
  · simpa only [htaken, if_true] using hexec
  · have hfall : exec (.j cc (.lbl l)) s = .next (s.setPc s.nextPc) := by
      simpa only [hnot, Bool.false_eq_true, if_false] using hexec
    exact ⟨hfall, fun cell hcell => nextPc_of_fetched hcell ▸ hfall⟩

end Sys2Proof.Proofs
end

section
/-! PROOFS. What a step keeps (20_memory.md R40, 60_exceptions.md R141): the effect of a step and the steps
that end Faulted, said once each; precision, the constant program, and the invariant of the state. -/

namespace Sys2Proof.Proofs

open Sys2Proof.Machine

/-! ## What a step can do -/

/-- A step has an instruction's effect at most, and sets the status besides. -/
theorem step_effect {s t : State} (h : step s = .next t) : ∃ u, Effect s u ∧ t = u.setStatus t.status := by
  obtain ⟨-, ⟨-, rfl⟩ | ⟨-, f, rfl⟩ | ⟨-, cell, -, hexec⟩⟩ := step_cases s t h
  · exact ⟨s, Effect.of_same s, rfl⟩
  · exact ⟨s, Effect.of_same s, rfl⟩
  · exact ⟨t, exec_effect _ s t hexec, rfl⟩

/-- A step of a running machine that is not at `HALT_ADDR` is its instruction's (20_memory.md R43). -/
theorem step_of_fetched {s : State} {cell : CodeCell} (hs : s.status = .running)
    (hp : s.pc ≠ s.params.haltAddr) (hc : s.fetched = some cell) :
    step s = settle s (exec cell.instr s) := by
  simp only [step, hs, hp, if_false, hc]

/-- Where no instruction stands, the fetch faults (20_memory.md R43). -/
theorem step_of_not_fetched {s : State} (hs : s.status = .running) (hp : s.pc ≠ s.params.haltAddr)
    (hc : s.fetched = none) : step s = .next (takeFault (.fetchFault s.pc) s) := by
  simp only [step, hs, hp, if_false, hc]

/-- At `HALT_ADDR` the run ends (60_exceptions.md R150). -/
theorem step_of_haltAddr {s : State} (hs : s.status = .running) (hp : s.pc = s.params.haltAddr) :
    step s = .next (haltRun s) := by
  simp only [step, hs, hp, if_true]

/-- A step that ends Faulted has taken that fault in the state before: the fetch's, or the instruction's. -/
theorem step_faulted {s t : State} {f : Fault} (h : step s = .next t) (hf : t.status = .faulted f) :
    t = takeFault f s ∧
      (f = .fetchFault s.pc ∨ ∃ cell, s.fetched = some cell ∧ exec cell.instr s = .fault f) := by
  obtain ⟨hs, ⟨-, rfl⟩ | ⟨hp, g, rfl⟩ | ⟨-, cell, -, hexec⟩⟩ := step_cases s t h
  · cases hf
  · cases hf
    refine ⟨rfl, ?_⟩
    cases hc : s.fetched with
    | none =>
      rw [step_of_not_fetched hs hp hc] at h
      have hstatus := congrArg State.status (Host.Outcome.next.inj h)
      exact .inl (by cases hstatus; rfl)
    | some cell =>
      rw [step_of_fetched hs hp hc] at h
      refine .inr ⟨cell, rfl, ?_⟩
      cases he : exec cell.instr s with
      | next u =>
        rw [he] at h
        have hu : u = takeFault f s := Host.Outcome.next.inj h
        have hrun : u.status = .running := (exec_effect _ s u he).status.trans hs
        rw [hu] at hrun; cases hrun
      | fault g =>
        rw [he] at h
        have hstatus := congrArg State.status (Host.Outcome.next.inj h)
        cases hstatus; rfl
      | refused r => exact absurd he (exec_not_refused _ _ r)
  · rw [(exec_effect _ s t hexec).status, hs] at hf; cases hf

/-! ## Steps, faults and the program -/

/-- Settles O41: in a running state with an instruction at EIP the step is `settle` of that instruction. -/
theorem stepRunsTheInstructionAtEip : Obligations.StepRunsTheInstructionAtEip := by
  intro s cell hs hp hc
  have hstep := step_of_fetched hs hp hc
  exact ⟨fun t ht => by rw [hstep, ht]; rfl, fun f hf => by rw [hstep, hf]; rfl, exec_not_refused _ s⟩

/-- Settles O42: the fetch's fault is taken. -/
theorem fetchFaultWhereNoInstructionStands : Obligations.FetchFaultWhereNoInstructionStands :=
  fun _ hs hp hc => step_of_not_fetched hs hp hc

/-- Settles O43: `haltRun` sets the status alone. -/
theorem runEndsAtHaltAddress : Obligations.RunEndsAtHaltAddress :=
  fun _ hs hp => step_of_haltAddr hs hp

/-- Settles O44: only a running state has a next one (`step_cases`). -/
theorem stoppedMachineHasNoStep : Obligations.StoppedMachineHasNoStep :=
  fun s t hs h => hs (step_cases s t h).1

/-- Settles O45: the fault was taken in the state before (`step_faulted`), which sets the status alone. -/
theorem faultsArePrecise : Obligations.FaultsArePrecise := by
  intro s t f h hf
  obtain ⟨rfl, -⟩ := step_faulted h hf
  exact ⟨rfl, rfl, rfl, rfl, rfl, rfl, rfl, rfl⟩

/-- Settles O46: no effect reaches the program, the labels or the parameters. -/
theorem programNeverChanges : Obligations.ProgramNeverChanges := by
  intro s t h
  obtain ⟨u, hu, ht⟩ := step_effect h
  rw [ht]
  exact ⟨hu.code, hu.labels, hu.params⟩

/-! ## The invariant -/

/-- The program's part of the invariant looks at the code, the labels and the parameters only. -/
theorem programWf_of_same {s t : State} (hc : t.code = s.code) (hl : t.labels = s.labels)
    (hp : t.params = s.params) (h : s.programWf) : t.programWf := by
  simpa only [State.programWf, hc, hl, hp] using h

/-- An effect keeps memory canonical: it writes one word at most, at an aligned address. -/
theorem mem_wf_of_effect {s t : State} (h : Effect s t) (hm : s.mem.wf) : t.mem.wf := by
  rcases h.mem with e | ⟨a, v, ha, e⟩
  · rw [e]; exact hm
  · rw [e]; exact writeWord_wf _ a v (validAddr_aligned _ _ ha) hm

/-- Settles O47: a step has an instruction's effect, which keeps memory canonical and leaves the rest of
what the invariant looks at. -/
theorem everyStepKeepsTheStateWellFormed : Obligations.EveryStepKeepsTheStateWellFormed := by
  intro s t ⟨hmem, hparams, hprogram⟩ h
  obtain ⟨u, hu, ht⟩ := step_effect h
  rw [ht]
  refine ⟨(mem_wf_of_effect hu hmem :), ?_, programWf_of_same hu.code hu.labels hu.params hprogram⟩
  rw [State.setStatus_params, hu.params]
  exact hparams

/-- Settles O48: the memory after reset is canonical, the defaults are legal, and no program is loaded. -/
theorem resetIsWellFormed : Obligations.ResetIsWellFormed :=
  ⟨reset_mem_wf, by decide, by decide⟩

end Sys2Proof.Proofs
end

section
/-! PROOFS. A well-formed term raises no IllFormed (30_encoding.md R70): for each shared operation the operands
for which it does not, then for each instruction. -/

namespace Sys2Proof.Proofs

open Sys2Proof.Machine

/-- The computation does not raise IllFormed. -/
def NeverIllFormed {α : Type} (b : Except Fault α) : Prop := ∀ r, b ≠ .error (.illFormed r)

/-- Every label of the operand has an address. -/
def Resolved (s : State) (o : Operand) : Prop := ∀ l ∈ o.labels, ∃ a, s.labelAddr l = some a

/-! ## The shared operations -/

theorem ok_neverIllFormed {α : Type} (a : α) : NeverIllFormed (.ok a) := fun _ => nofun

theorem NeverIllFormed.bind {α β : Type} {x : Except Fault α} {f : α → Except Fault β}
    (hx : NeverIllFormed x) (hf : ∀ a, x = .ok a → NeverIllFormed (f a)) : NeverIllFormed (x >>= f) := by
  intro r h
  cases x with
  | error e => cases h; exact hx r rfl
  | ok a => exact hf a rfl r h

theorem memRead_neverIllFormed (s : State) (a : Word) : NeverIllFormed (memRead s a) :=
  fun _ h => nomatch ((memRead_error s a _).mp h).2

theorem memWrite_neverIllFormed (s : State) (a v : Word) : NeverIllFormed (memWrite s a v) :=
  fun _ h => nomatch ((memWrite_error s a v _).mp h).2

theorem shiftCount_neverIllFormed (s : State) (c : Word) : NeverIllFormed (shiftCount s c) := by
  intro r h
  unfold shiftCount at h
  cases hp : s.params.shiftCount <;> rw [hp] at h
  case fault => by_cases hc : 31 < c.toNat <;> simp [hc] at h
  case mask5 => cases h

section
variable {s : State}

theorem effAddr_neverIllFormed {m : Ind} (h : Resolved s (.ind m)) : NeverIllFormed (effAddr s m) := by
  obtain ⟨a, ha⟩ := effAddr_of_labelAddr (s := s) (m := m) fun l hl =>
    h l (by simp [Operand.labels, hl, Disp.labels])
  rw [ha]; exact ok_neverIllFormed a

theorem value_neverIllFormed {o : Operand} (h : Resolved s o) : NeverIllFormed (value s o) := by
  cases o with
  | imm i => exact ok_neverIllFormed i
  | reg r => exact ok_neverIllFormed _
  | lbl l =>
    obtain ⟨a, ha⟩ := h l List.mem_cons_self
    rw [value_lbl s l a ha]; exact ok_neverIllFormed a
  | ind m => exact (effAddr_neverIllFormed h).bind fun a _ => memRead_neverIllFormed s a

theorem store_neverIllFormed {o : Operand} (h : Resolved s o) (hl : o.isLocation = true) (v : Word) :
    NeverIllFormed (store s o v) := by
  cases o with
  | imm i => cases hl
  | lbl l => cases hl
  | reg r => exact ok_neverIllFormed _
  | ind m => exact (effAddr_neverIllFormed h).bind fun a _ => memWrite_neverIllFormed s a v

/-- A store that is the last thing to fail. -/
theorem store_then_ok_neverIllFormed {o : Operand} (h : Resolved s o) (hl : o.isLocation = true) (v : Word)
    (g : State → State) : NeverIllFormed (store s o v >>= fun t => .ok (g t)) :=
  (store_neverIllFormed h hl v).bind fun _ _ => ok_neverIllFormed _

theorem combine_neverIllFormed {src dst : Operand} (hs : Resolved s src) (hd : Resolved s dst)
    (hl : dst.isLocation = true) (f : Word → Word → Word) (g : Word → Word → Flags) :
    NeverIllFormed (combine s src dst f g) :=
  (value_neverIllFormed hs).bind fun _ _ => (value_neverIllFormed hd).bind fun _ _ =>
    store_then_ok_neverIllFormed hd hl _ _

theorem shift_neverIllFormed {amt dst : Operand} (ha : Resolved s amt) (hd : Resolved s dst)
    (hl : dst.isLocation = true) (f : Word → Nat → Word) (g : Word → Bool) :
    NeverIllFormed (shift s amt dst f g) :=
  (value_neverIllFormed ha).bind fun _ _ => (shiftCount_neverIllFormed s _).bind fun _ _ =>
    (value_neverIllFormed hd).bind fun _ _ => store_then_ok_neverIllFormed hd hl _ _

/-- Resolution is about the labels of the state only. -/
theorem Resolved.of_labels {t : State} {o : Operand} (h : Resolved s o) (hl : t.labels = s.labels) :
    Resolved t o := by
  unfold Resolved; rw [State.labelAddr_eq s t hl]; exact h

theorem pushView_labels (s : State) : (pushView s).labels = s.labels := by
  unfold pushView; cases s.params.espOperand <;> rfl

theorem pushReturn_neverIllFormed (s : State) : NeverIllFormed (pushReturn s) :=
  (memWrite_neverIllFormed s _ _).bind fun _ _ => ok_neverIllFormed _

theorem callTarget_neverIllFormed {t : State} {src : Operand} (h : Resolved t src) (early : Word) :
    NeverIllFormed (callTarget src t early) := by
  unfold callTarget
  cases t.params.espOperand with
  | refuse => exact ok_neverIllFormed early
  | ia32Order => exact ok_neverIllFormed early
  | sequential => exact value_neverIllFormed h

theorem callBody_neverIllFormed {src : Operand} (h : Resolved s src) : NeverIllFormed (callBody src s) :=
  (value_neverIllFormed (h.of_labels (pushView_labels s))).bind fun _ _ =>
    (pushReturn_neverIllFormed s).bind fun t ht =>
      (callTarget_neverIllFormed (h.of_labels (pushReturn_effect s t ht).labels) _).bind fun _ _ =>
        ok_neverIllFormed _

end

/-! ## The instructions -/

/-- R70 reason 9: the operands of a well-formed term are resolved. -/
theorem resolved_of_wellFormed {s : State} {i : Instr} (hi : illFormed s i = none) {o : Operand}
    (ho : o ∈ i.operands) : Resolved s o :=
  fun _ hl => labelAddr_of_wellFormed hi (List.mem_flatMap.mpr ⟨o, ho, hl⟩)

/-- R70 reason 5: a well-formed Imul has a register as DEST. -/
theorem imul_dst_of_wellFormed {s : State} {src dst : Operand} (hi : illFormed s (.imul src dst) = none) :
    ∃ r, dst = .reg r := by
  have h := breaks_eq_false_of_wellFormed hi .imulDestNotReg (by decide)
  simp only [Instr.breaks, Bool.not_eq_false'] at h
  exact (isReg_iff dst).mp h

/-- A well-formed term faults as its body does. -/
theorem runTerm_fault {s : State} {i : Instr} {b : Except Fault State} {f : Fault}
    (hi : illFormed s i = none) : runTerm s i b = .fault f ↔ b = .error f := by
  unfold runTerm; rw [hi]
  cases b with
  | error g => exact ⟨fun h => by cases h; rfl, fun h => by cases h; rfl⟩
  | ok t => exact ⟨nofun, nofun⟩

/-- No well-formed term raises IllFormed: its operands are resolved, and where it writes is a location. -/
theorem exec_neverIllFormed {s : State} {i : Instr} (hi : illFormed s i = none) (r : IllFormedReason) :
    exec i s ≠ .fault (.illFormed r) := by
  intro h
  have hres : ∀ {o}, o ∈ i.operands → Resolved s o := resolved_of_wellFormed hi
  have hval : ∀ {o}, o ∈ i.operands → NeverIllFormed (value s o) := fun ho => value_neverIllFormed (hres ho)
  have hloc : ∀ {o}, i.locationSlot = some o → o.isLocation = true := isLocation_of_wellFormed hi
  have first : ∀ (o : Operand) (os : List Operand), o ∈ o :: os := fun _ _ => List.mem_cons_self
  have second : ∀ o p : Operand, p ∈ [o, p] := fun _ _ => List.mem_cons_of_mem _ List.mem_cons_self
  cases i <;> replace h := (runTerm_fault hi).mp h
  case neg dst | not dst | setb _ dst =>
    exact ((hval (first _ _)).bind fun _ _ =>
      store_then_ok_neverIllFormed (hres (first _ _)) (hloc rfl) _ _) r h
  case add src dst | sub src dst | and src dst | or src dst | xor src dst =>
    exact combine_neverIllFormed (hres (first _ _)) (hres (second _ _)) (hloc rfl) _ _ r h
  case sar amt dst | shr amt dst =>
    exact shift_neverIllFormed (hres (first _ _)) (hres (second _ _)) (hloc rfl) _ _ r h
  case shl amt dst =>
    exact ((hval (first _ _)).bind fun _ _ => (shiftCount_neverIllFormed s _).bind fun _ _ =>
      (hval (second _ _)).bind fun _ _ =>
        store_then_ok_neverIllFormed (hres (second _ _)) (hloc rfl) _ _) r h
  case imul src dst =>
    obtain ⟨q, rfl⟩ := imul_dst_of_wellFormed hi
    exact ((hval (first _ _)).bind fun _ _ => ok_neverIllFormed _) r h
  case lea src dst =>
    obtain ⟨⟨m, rfl⟩, q, rfl⟩ := lea_operands_of_wellFormed hi
    exact ((effAddr_neverIllFormed (hres (first _ _))).bind fun _ _ => ok_neverIllFormed _) r h
  case mov src dst =>
    exact ((hval (first _ _)).bind fun _ _ =>
      store_then_ok_neverIllFormed (hres (second _ _)) (hloc rfl) _ _) r h
  case push src =>
    exact ((value_neverIllFormed ((hres (first _ _)).of_labels (pushView_labels s))).bind fun _ _ =>
      (memWrite_neverIllFormed s _ _).bind fun _ _ => ok_neverIllFormed _) r h
  case pop dst =>
    have hdst := (hres (first _ _)).of_labels (popView_sameBut s).1.labels
    exact ((memRead_neverIllFormed s _).bind fun _ _ =>
      store_then_ok_neverIllFormed hdst (hloc rfl) _ _) r h
  case cmp src2 src1 =>
    exact ((hval (first _ _)).bind fun _ _ => (hval (second _ _)).bind fun _ _ => ok_neverIllFormed _) r h
  case jmp src => exact ((hval (first _ _)).bind fun _ _ => ok_neverIllFormed _) r h
  case call src => exact callBody_neverIllFormed (hres (first _ _)) r h
  case ret => exact ((memRead_neverIllFormed s _).bind fun _ _ => ok_neverIllFormed _) r h
  case j cc target =>
    obtain ⟨l, a, rfl, -⟩ := j_target_of_wellFormed hi
    exact (NeverIllFormed.bind (hval (first _ _)) fun _ _ => ok_neverIllFormed _) r h

/-- The terms of a state are those of the program, which no step changes. -/
theorem termsWf_of_effect {s t : State} (h : Effect s t) (hw : s.termsWf) : t.termsWf := by
  intro c hc
  rw [h.code] at hc
  rw [illFormed_eq s t h.labels h.params]
  exact hw c hc

/-- Settles O49: no step changes the program, and the only step to an IllFormed is that of an instruction that
raises one (`step_faulted`), which a well-formed one does not. -/
theorem wellFormedProgramNeverIllFormed : Obligations.WellFormedProgramNeverIllFormed := by
  intro s t hw h
  refine ⟨?_, fun r hr => ?_⟩
  · obtain ⟨u, hu, ht⟩ := step_effect h
    rw [ht]
    exact (termsWf_of_effect hu hw :)
  · obtain ⟨-, hfetch | ⟨cell, hcell, hexec⟩⟩ := step_faulted h hr
    · cases hfetch
    · exact exec_neverIllFormed (hw _ (mem_of_lookup _ _ _ hcell)) r hexec

end Sys2Proof.Proofs
end

section
/-! PROOFS. The serialisation of terms (log 1): what each reader reads is what the encoder writes for its
answer, the converse of the read-back laws of Laws/Encoding. -/

namespace Sys2Proof.Proofs

/-! ## Readers of one field -/

/-- A sequence of two readers answers exactly when both do. -/
theorem decode_bind_ok {α β : Type} {x : Except DecodeError α} {f : α → Except DecodeError β} {b : β} :
    (x >>= f) = .ok b ↔ ∃ a, x = .ok a ∧ f a = .ok b := by
  cases x with
  | error e => exact ⟨nofun, fun ⟨_, h, _⟩ => nomatch h⟩
  | ok a => exact ⟨fun h => ⟨a, rfl, h⟩, fun ⟨a', h, hf⟩ => by cases h; exact hf⟩

theorem takeByte_ok {bs rest : List Byte} {b : Byte} (h : takeByte bs = .ok (b, rest)) : bs = b :: rest := by
  cases bs with
  | nil => cases h
  | cons c cs => cases h; rfl

theorem bytesOfWord_wordOfBytes (b0 b1 b2 b3 : Byte) :
    bytesOfWord (wordOfBytes b0 b1 b2 b3) = [b0, b1, b2, b3] := by
  have byte_eq : ∀ {a b : Byte}, (∀ i < 8, a.getLsbD i = b.getLsbD i) → a = b := BitVec.eq_of_getLsbD_eq
  simp only [bytesOfWord, wordOfBytes, List.cons.injEq, and_true]
  refine ⟨byte_eq fun i hi => ?_, byte_eq fun i hi => ?_, byte_eq fun i hi => ?_, byte_eq fun i hi => ?_⟩ <;>
    simp only [BitVec.getLsbD_append, BitVec.getLsbD_extractLsb'] <;> grind

theorem takeWord_ok {bs rest : List Byte} {w : Word} (h : takeWord bs = .ok (w, rest)) :
    bs = bytesOfWord w ++ rest := by
  match bs, h with
  | b0 :: b1 :: b2 :: b3 :: _, h => cases h; rw [bytesOfWord_wordOfBytes]; rfl

theorem takeLabel_ok {bs rest : List Byte} {l : Label} (h : takeLabel bs = .ok (l, rest)) :
    bs = bytesOfLabel l ++ rest := by
  obtain ⟨⟨w, r⟩, hw, h⟩ := decode_bind_ok.mp h
  cases h; exact takeWord_ok hw

theorem place_of_ofPlace {b : Byte} {r : Reg} (h : Reg.ofPlace b = some r) : b = r.place := by
  unfold Reg.ofPlace at h
  split at h <;> cases h <;> rename_i hb <;> exact BitVec.eq_of_toNat_eq hb

theorem takeReg_ok {bs rest : List Byte} {r : Reg} (h : takeReg bs = .ok (r, rest)) :
    bs = r.place :: rest := by
  obtain ⟨⟨b, bs'⟩, hb, h⟩ := decode_bind_ok.mp h
  dsimp only at h
  split at h
  · rename_i q hq
    cases h
    rw [takeByte_ok hb, place_of_ofPlace hq]
  · cases h

theorem number_of_ofNumber {n : Nat} {cc : CondCode} (h : CondCode.ofNumber n = some cc) :
    cc.number = n := by
  unfold CondCode.ofNumber at h
  split at h <;> cases h <;> rfl

theorem takeCond_ok {bs rest : List Byte} {cc : CondCode} (h : takeCond bs = .ok (cc, rest)) :
    bs = byteOfCond cc :: rest := by
  obtain ⟨⟨b, bs'⟩, hb, h⟩ := decode_bind_ok.mp h
  dsimp only at h
  split at h
  · rename_i q hq
    cases h
    rw [takeByte_ok hb, byteOfCond, number_of_ofNumber hq]
    simp
  · cases h

/-! ## Indirect addresses -/

theorem takeOptional_ok {α : Type} {present : Bool} {read : Reader α} {bs rest : List Byte} {o : Option α}
    (h : takeOptional present read bs = .ok (o, rest)) :
    (o = none ∧ present = false ∧ bs = rest) ∨
      ∃ x, o = some x ∧ present = true ∧ read bs = .ok (x, rest) := by
  cases present with
  | false => cases h; exact .inl ⟨rfl, rfl, rfl⟩
  | true =>
    obtain ⟨⟨x, r⟩, hx, h⟩ := decode_bind_ok.mp h
    cases h; exact .inr ⟨x, rfl, rfl, hx⟩

theorem takeIndex_ok {bs rest : List Byte} {p : Reg × Word} (h : takeIndex bs = .ok (p, rest)) :
    bs = p.1.place :: bytesOfWord p.2 ++ rest := by
  obtain ⟨⟨r, r1⟩, hr, h⟩ := decode_bind_ok.mp h
  obtain ⟨⟨w, r2⟩, hw, h⟩ := decode_bind_ok.mp h
  cases h
  rw [takeReg_ok hr, takeWord_ok hw]; rfl

theorem takeDisp_ok {isLabel : Bool} {bs rest : List Byte} {d : Disp}
    (h : takeDisp isLabel bs = .ok (d, rest)) : d.isLabel = isLabel ∧ bs = bytesOfDisp d ++ rest := by
  cases isLabel with
  | true =>
    obtain ⟨⟨l, r⟩, hl, h⟩ := decode_bind_ok.mp h
    cases h; exact ⟨rfl, takeLabel_ok hl⟩
  | false =>
    obtain ⟨⟨w, r⟩, hw, h⟩ := decode_bind_ok.mp h
    cases h; exact ⟨rfl, takeWord_ok hw⟩

/-- A presence byte with no unused bit set is made of its four bits. -/
theorem presence_of_bits (p : Byte) (hp : p.toNat < 16) :
    p = 0#4 ++ BitVec.ofBool (p.getLsbD 3) ++ BitVec.ofBool (p.getLsbD 2) ++ BitVec.ofBool (p.getLsbD 1)
      ++ BitVec.ofBool (p.getLsbD 0) := by
  revert p; decide

theorem takeInd_ok {bs rest : List Byte} {m : Ind} (h : takeInd bs = .ok (m, rest)) :
    bs = bytesOfInd m ++ rest := by
  obtain ⟨⟨p, r0⟩, hp, h⟩ := decode_bind_ok.mp h
  dsimp only at h
  split at h
  · cases h
  rename_i hcheck
  obtain ⟨⟨base, r1⟩, hbase, h⟩ := decode_bind_ok.mp h
  obtain ⟨⟨index, r2⟩, hindex, h⟩ := decode_bind_ok.mp h
  obtain ⟨⟨disp, r3⟩, hdisp, h⟩ := decode_bind_ok.mp h
  obtain ⟨rfl, rfl⟩ := Prod.mk.inj (Except.ok.inj h)
  simp only [Bool.or_eq_true, decide_eq_true_eq, Bool.and_eq_true, Bool.not_eq_true', not_or, not_le,
    not_and] at hcheck
  obtain ⟨hlt, hlabel⟩ := hcheck
  have hb : base.isSome = p.getLsbD 0 ∧ r0 = (base.map fun r => [r.place]).getD [] ++ r1 := by
    rcases takeOptional_ok hbase with ⟨rfl, hbit, rfl⟩ | ⟨r, rfl, hbit, hr⟩
    · exact ⟨hbit.symm, rfl⟩
    · exact ⟨hbit.symm, takeReg_ok hr⟩
  have hi : index.isSome = p.getLsbD 1 ∧
      r1 = (index.map fun q => q.1.place :: bytesOfWord q.2).getD [] ++ r2 := by
    rcases takeOptional_ok hindex with ⟨rfl, hbit, rfl⟩ | ⟨q, rfl, hbit, hq⟩
    · exact ⟨hbit.symm, rfl⟩
    · exact ⟨hbit.symm, takeIndex_ok hq⟩
  have hd : disp.isSome = p.getLsbD 2 ∧ disp.any Disp.isLabel = p.getLsbD 3 ∧
      r2 = (disp.map bytesOfDisp).getD [] ++ r3 := by
    rcases takeOptional_ok hdisp with ⟨rfl, hbit, rfl⟩ | ⟨d, rfl, hbit, hd⟩
    · have hbit3 : p.getLsbD 3 = false := by
        by_contra hne
        exact absurd hbit (by simpa using hlabel (by simpa using hne))
      exact ⟨hbit.symm, hbit3.symm, rfl⟩
    · obtain ⟨hl, hbytes⟩ := takeDisp_ok hd
      exact ⟨hbit.symm, hl, hbytes⟩
  obtain rfl := takeByte_ok hp
  have hpresence : p = Ind.presence ⟨base, index, disp⟩ := by
    rw [Ind.presence, hb.1, hi.1, hd.1, hd.2.1]; exact presence_of_bits p hlt
  rw [hb.2, hi.2, hd.2.2, bytesOfInd, ← hpresence]
  simp only [List.cons_append, List.append_assoc]

/-! ## Operand slots -/

/-- What `read` reads is what `write` writes for its answer. -/
def Spells {α : Type} (read : Reader α) (write : α → Option (List Byte)) : Prop :=
  ∀ {bs : List Byte} {x : α} {rest : List Byte}, read bs = .ok (x, rest) →
    ∃ e, write x = some e ∧ bs = e ++ rest

theorem takeRegOperand_spells : Spells takeRegOperand bytesOfRegOperand := by
  intro bs o rest h
  obtain ⟨⟨r, r1⟩, hr, h⟩ := decode_bind_ok.mp h
  cases h; exact ⟨_, rfl, takeReg_ok hr⟩

theorem takeIndOperand_spells : Spells takeIndOperand bytesOfIndOperand := by
  intro bs o rest h
  obtain ⟨⟨m, r1⟩, hm, h⟩ := decode_bind_ok.mp h
  cases h; exact ⟨_, rfl, takeInd_ok hm⟩

theorem takeLblOperand_spells : Spells takeLblOperand bytesOfLblOperand := by
  intro bs o rest h
  obtain ⟨⟨l, r1⟩, hl, h⟩ := decode_bind_ok.mp h
  cases h; exact ⟨_, rfl, takeLabel_ok hl⟩

theorem takeCond_spells : Spells takeCond fun cc => some [byteOfCond cc] :=
  fun h => ⟨_, rfl, takeCond_ok h⟩

/-- The byte that numbers the kinds of a slot, and the field after it. -/
theorem kindByte_append {bs r0 e rest : List Byte} {k c : Byte} (hk : takeByte bs = .ok (k, r0))
    (hc : k.toNat = c.toNat) (he : r0 = e ++ rest) : bs = c :: e ++ rest := by
  rw [takeByte_ok hk, he, BitVec.eq_of_toNat_eq hc]; rfl

theorem takeValue_spells : Spells takeValue bytesOfValue := by
  intro bs o rest h
  obtain ⟨⟨k, r0⟩, hk, h⟩ := decode_bind_ok.mp h
  dsimp only at h
  split at h
  next hc =>
    obtain ⟨⟨w, r1⟩, hw, h⟩ := decode_bind_ok.mp h
    cases h; exact ⟨_, rfl, kindByte_append hk hc (takeWord_ok hw)⟩
  next hc =>
    obtain ⟨⟨l, r1⟩, hl, h⟩ := decode_bind_ok.mp h
    cases h; exact ⟨_, rfl, kindByte_append hk hc (takeLabel_ok hl)⟩
  next hc =>
    obtain ⟨⟨r, r1⟩, hr, h⟩ := decode_bind_ok.mp h
    cases h; exact ⟨_, rfl, kindByte_append hk hc (takeReg_ok hr)⟩
  next hc =>
    obtain ⟨⟨m, r1⟩, hm, h⟩ := decode_bind_ok.mp h
    cases h; exact ⟨_, rfl, kindByte_append hk hc (takeInd_ok hm)⟩
  next => cases h

theorem takeLocation_spells : Spells takeLocation bytesOfLocation := by
  intro bs o rest h
  obtain ⟨⟨k, r0⟩, hk, h⟩ := decode_bind_ok.mp h
  dsimp only at h
  split at h
  next hc =>
    obtain ⟨⟨r, r1⟩, hr, h⟩ := decode_bind_ok.mp h
    cases h; exact ⟨_, rfl, kindByte_append hk hc (takeReg_ok hr)⟩
  next hc =>
    obtain ⟨⟨m, r1⟩, hm, h⟩ := decode_bind_ok.mp h
    cases h; exact ⟨_, rfl, kindByte_append hk hc (takeInd_ok hm)⟩
  next => cases h

theorem takeAmount_spells : Spells takeAmount bytesOfAmount := by
  intro bs o rest h
  obtain ⟨⟨k, r0⟩, hk, h⟩ := decode_bind_ok.mp h
  dsimp only at h
  split at h
  next hc =>
    obtain ⟨⟨w, r1⟩, hw, h⟩ := decode_bind_ok.mp h
    cases h; exact ⟨_, rfl, kindByte_append hk hc (takeWord_ok hw)⟩
  next hc => cases h; exact ⟨_, rfl, kindByte_append hk hc rfl⟩
  next => cases h

end Sys2Proof.Proofs
end

section
/-! PROOFS. The decoder and the encoder are inverse (log 1): instruction by instruction in one direction, tag
by tag in the other. -/

namespace Sys2Proof.Proofs

/-! ## The fields after the tag -/

theorem join2_eq_some {a b : Option (List Byte)} {e : List Byte} (h : join2 a b = some e) :
    ∃ x y, a = some x ∧ b = some y ∧ e = x ++ y := by
  cases a with
  | none => cases h
  | some x =>
    cases b with
    | none => cases h
    | some y => cases h; exact ⟨x, y, rfl, rfl, rfl⟩

theorem join2_isSome {a b : Option (List Byte)} (ha : a.isSome = true) (hb : b.isSome = true) :
    (join2 a b).isSome = true := by
  obtain ⟨x, rfl⟩ := Option.isSome_iff_exists.mp ha
  obtain ⟨y, rfl⟩ := Option.isSome_iff_exists.mp hb
  rfl

/-- Two slots read back, given what each reads back. -/
theorem take2_join2 {α β : Type} (f : α → β → Instr) {a : Reader α} {b : Reader β} {x : α} {y : β}
    {wx wy : Option (List Byte)} {e : List Byte} (rest : List Byte)
    (hx : ∀ bx r, wx = some bx → a (bx ++ r) = .ok (x, r))
    (hy : ∀ bY r, wy = some bY → b (bY ++ r) = .ok (y, r)) (h : join2 wx wy = some e) :
    take2 f a b (e ++ rest) = .ok (f x y, rest) := by
  obtain ⟨bx, bY, hbx, hby, rfl⟩ := join2_eq_some h
  exact take2_bytes f a b x y bx bY rest (fun r => hx bx r hbx) fun r => hy bY r hby

/-- The fields of a term read back, under its tag. -/
theorem takeFields_bytes {i : Instr} {e : List Byte} (h : bytesOfFields i = some e) (rest : List Byte) :
    takeFields i.tag (e ++ rest) = .ok (i, rest) := by
  have hcond : ∀ (cc : CondCode) bx r, some [byteOfCond cc] = some bx →
      takeCond (bx ++ r) = .ok (cc, r) := by
    rintro cc _ r ⟨⟩; exact takeCond_byte cc r
  cases i
  case neg d | not d | pop d => exact take1_bytes _ _ d e rest fun r => takeLocation_bytes d e r h
  case push s | jmp s | call s => exact take1_bytes _ _ s e rest fun r => takeValue_bytes s e r h
  case add s d | sub s d | and s d | or s d | xor s d | mov s d =>
    exact take2_join2 _ rest (takeValue_bytes s) (takeLocation_bytes d) h
  case sar a d | shl a d | shr a d => exact take2_join2 _ rest (takeAmount_bytes a) (takeLocation_bytes d) h
  case imul s d => exact take2_join2 _ rest (takeValue_bytes s) (takeRegOperand_bytes d) h
  case lea m d => exact take2_join2 _ rest (takeIndOperand_bytes m) (takeRegOperand_bytes d) h
  case cmp s2 s1 => exact take2_join2 _ rest (takeValue_bytes s2) (takeValue_bytes s1) h
  case setb cc d => exact take2_join2 _ rest (hcond cc) (takeLocation_bytes d) h
  case j cc t => exact take2_join2 _ rest (hcond cc) (takeLblOperand_bytes t) h
  case ret => cases h; rfl

/-- The fields of a term of one tag. -/
def bytesUnderTag (n : Nat) (i : Instr) : Option (List Byte) := if i.tag = n then bytesOfFields i else none

theorem take1_spells {α : Type} {f : α → Instr} {a : Reader α} {w : α → Option (List Byte)}
    {wi : Instr → Option (List Byte)} (ha : Spells a w) (hw : ∀ x, wi (f x) = w x) :
    Spells (take1 f a) wi := by
  intro bs i rest h
  obtain ⟨⟨x, r⟩, hx, h⟩ := decode_bind_ok.mp h
  cases h
  rw [hw]; exact ha hx

theorem take2_spells {α β : Type} {f : α → β → Instr} {a : Reader α} {b : Reader β}
    {wa : α → Option (List Byte)} {wb : β → Option (List Byte)} {wi : Instr → Option (List Byte)}
    (ha : Spells a wa) (hb : Spells b wb) (hw : ∀ x y, wi (f x y) = join2 (wa x) (wb y)) :
    Spells (take2 f a b) wi := by
  intro bs i rest h
  obtain ⟨⟨x, r⟩, hx, h⟩ := decode_bind_ok.mp h
  obtain ⟨⟨y, r'⟩, hy, h⟩ := decode_bind_ok.mp h
  cases h
  obtain ⟨ex, hex, rfl⟩ := ha hx
  obtain ⟨ey, hey, hr⟩ := hb hy
  refine ⟨ex ++ ey, by rw [hw, hex, hey]; rfl, ?_⟩
  rw [List.append_assoc, ← hr]

/-- What is read after a tag is the fields of a term of that tag. -/
theorem takeFields_spells (n : Nat) : Spells (takeFields n) (bytesUnderTag n) :=
  match n with
  | 1 => take1_spells takeLocation_spells fun _ => rfl
  | 2 => take2_spells takeValue_spells takeLocation_spells fun _ _ => rfl
  | 3 => take2_spells takeValue_spells takeLocation_spells fun _ _ => rfl
  | 4 => take2_spells takeValue_spells takeRegOperand_spells fun _ _ => rfl
  | 5 => take1_spells takeLocation_spells fun _ => rfl
  | 6 => take2_spells takeValue_spells takeLocation_spells fun _ _ => rfl
  | 7 => take2_spells takeValue_spells takeLocation_spells fun _ _ => rfl
  | 8 => take2_spells takeValue_spells takeLocation_spells fun _ _ => rfl
  | 9 => take2_spells takeAmount_spells takeLocation_spells fun _ _ => rfl
  | 10 => take2_spells takeAmount_spells takeLocation_spells fun _ _ => rfl
  | 11 => take2_spells takeAmount_spells takeLocation_spells fun _ _ => rfl
  | 12 => take2_spells takeCond_spells takeLocation_spells fun _ _ => rfl
  | 13 => take2_spells takeIndOperand_spells takeRegOperand_spells fun _ _ => rfl
  | 14 => take2_spells takeValue_spells takeLocation_spells fun _ _ => rfl
  | 15 => take1_spells takeValue_spells fun _ => rfl
  | 16 => take1_spells takeLocation_spells fun _ => rfl
  | 17 => take2_spells takeValue_spells takeValue_spells fun _ _ => rfl
  | 18 => take1_spells takeValue_spells fun _ => rfl
  | 19 => take1_spells takeValue_spells fun _ => rfl
  | 20 => fun h => by cases h; exact ⟨[], rfl, rfl⟩
  | 21 => take2_spells takeCond_spells takeLblOperand_spells fun _ _ => rfl
  | 0 => fun h => nomatch h
  | _ + 22 => fun h => nomatch h

/-! ## Terms of well-formed shape -/

/-- A term of well-formed shape breaks no check on the term alone (R70 reasons 1 to 8). -/
theorem breaks_eq_false_of_shape {i : Instr} (hi : i.shapeReason = none) (r : IllFormedReason)
    (hr : r ∈ IllFormedReason.ofShape) : i.breaks .sequential (fun _ => true) r = false :=
  Bool.eq_false_iff.mpr (List.find?_eq_none.mp hi r hr)

theorem bytesOfValue_isSome (o : Operand) : (bytesOfValue o).isSome = true := by cases o <;> rfl

theorem bytesOfLocation_isSome {o : Operand} (h : o.isLocation = true) : (bytesOfLocation o).isSome = true := by
  cases o with
  | reg r => rfl
  | ind m => rfl
  | imm w => cases h
  | lbl l => cases h

theorem bytesOfAmount_isSome {o : Operand} (h : o.isAmount = true) : (bytesOfAmount o).isSome = true := by
  cases o with
  | imm w => rfl
  | reg r => simp [bytesOfAmount, show r = .ecx from beq_iff_eq.mp h]
  | ind m => cases h
  | lbl l => cases h

theorem bytesOfRegOperand_isSome {o : Operand} (h : o.isReg = true) : (bytesOfRegOperand o).isSome = true := by
  obtain ⟨r, rfl⟩ := (isReg_iff o).mp h; rfl

theorem bytesOfIndOperand_isSome {o : Operand} (h : o.isInd = true) : (bytesOfIndOperand o).isSome = true := by
  obtain ⟨m, rfl⟩ := (isInd_iff o).mp h; rfl

theorem bytesOfLblOperand_isSome {o : Operand} (h : o.isLbl = true) : (bytesOfLblOperand o).isSome = true := by
  obtain ⟨l, rfl⟩ := (isLbl_iff o).mp h; rfl

/-- A term of well-formed shape has its operands in slots that take their kinds. -/
theorem bytesOfFields_isSome {i : Instr} (hi : i.shapeReason = none) : (bytesOfFields i).isSome = true := by
  have hloc : ∀ {d}, i.locationSlot = some d → (bytesOfLocation d).isSome = true := fun hd =>
    bytesOfLocation_isSome (by
      simpa [Instr.breaks, hd] using breaks_eq_false_of_shape hi .destNotLocation (by decide))
  have hamt : ∀ {a}, i.amount = some a → (bytesOfAmount a).isSome = true := fun ha =>
    bytesOfAmount_isSome (by
      simpa [Instr.breaks, ha] using breaks_eq_false_of_shape hi .badAmount (by decide))
  cases i
  case neg d | not d | pop d => exact hloc rfl
  case push s | jmp s | call s => exact bytesOfValue_isSome s
  case add s d | sub s d | and s d | or s d | xor s d | mov s d =>
    exact join2_isSome (bytesOfValue_isSome s) (hloc rfl)
  case sar a d | shl a d | shr a d => exact join2_isSome (hamt rfl) (hloc rfl)
  case setb cc d => exact join2_isSome rfl (hloc rfl)
  case cmp s2 s1 => exact join2_isSome (bytesOfValue_isSome s2) (bytesOfValue_isSome s1)
  case imul s d =>
    have hd := breaks_eq_false_of_shape hi .imulDestNotReg (by decide)
    exact join2_isSome (bytesOfValue_isSome s) (bytesOfRegOperand_isSome (by simpa [Instr.breaks] using hd))
  case lea m d =>
    have hm := breaks_eq_false_of_shape hi .leaSourceNotInd (by decide)
    have hd := breaks_eq_false_of_shape hi .leaDestNotReg (by decide)
    exact join2_isSome (bytesOfIndOperand_isSome (by simpa [Instr.breaks] using hm))
      (bytesOfRegOperand_isSome (by simpa [Instr.breaks] using hd))
  case j cc t =>
    have ht := breaks_eq_false_of_shape hi .targetNotLabel (by decide)
    exact join2_isSome rfl (bytesOfLblOperand_isSome (by simpa [Instr.breaks] using ht))
  case ret => rfl

/-! ## Decoder and encoder -/

theorem encode_of_shape {i : Instr} {e : List Byte} (hi : i.shapeReason = none)
    (he : bytesOfFields i = some e) : encode i = some (BitVec.ofNat 8 i.tag :: e) := by
  simp only [encode, hi, he]

theorem checkShape_ok {i j : Instr} {bs rest : List Byte} (h : checkShape i bs = .ok (j, rest)) :
    i.shapeReason = none ∧ i = j ∧ bs = rest := by
  unfold checkShape at h
  split at h
  · cases h
  · cases h; exact ⟨‹_›, rfl, rfl⟩

/-- A tag byte holds its tag: the tags are 1 to 21. -/
theorem tagByte_toNat (i : Instr) : (BitVec.ofNat 8 i.tag).toNat = i.tag := by
  have := Laws.TagByte.tag_range i
  rw [BitVec.toNat_ofNat]; omega

/-- Settles O55: a term of well-formed shape has fields, which read back under its tag byte. -/
theorem decodeOfEncodeIsTheTerm : Obligations.DecodeOfEncodeIsTheTerm := by
  intro i hi
  obtain ⟨e, he⟩ := Option.isSome_iff_exists.mp (bytesOfFields_isSome hi)
  refine ⟨_, encode_of_shape hi he, fun rest => ?_⟩
  simp only [decode, List.cons_append, takeByte_cons, decode_ok_bind, tagByte_toNat,
    takeFields_bytes he rest, checkShape, hi]

/-- Settles O56: the fields read after a tag are those of the term answered (`takeFields_spells`), whose tag it
is. -/
theorem decodedBytesAreTheEncoding : Obligations.DecodedBytesAreTheEncoding := by
  intro bs rest i h
  obtain ⟨⟨tag, r0⟩, htag, h⟩ := decode_bind_ok.mp h
  obtain ⟨⟨i', r1⟩, hfields, h⟩ := decode_bind_ok.mp h
  obtain ⟨hshape, rfl, rfl⟩ := checkShape_ok h
  obtain ⟨e, he, rfl⟩ := takeFields_spells _ hfields
  obtain ⟨hn, he⟩ := Option.ite_none_right_eq_some.mp he
  refine ⟨hshape, _, encode_of_shape hshape he, ?_⟩
  rw [takeByte_ok htag, BitVec.eq_of_toNat_eq ((tagByte_toNat i').trans hn)]
  rfl

/-- The tags are 1 to 21: no other number has fields. -/
theorem takeFields_unassigned {n : Nat} (hn : n = 0 ∨ 21 < n) (bs : List Byte) :
    takeFields n bs = .error (.illFormed .badNumber) := by
  rcases hn with rfl | hn
  · rfl
  · obtain ⟨k, rfl⟩ := Nat.exists_eq_add_of_le' hn
    rfl

theorem takeCond_unassigned {b : Byte} (hb : 8 ≤ b.toNat) (rest : List Byte) :
    takeCond (b :: rest) = .error (.illFormed .badNumber) := by
  obtain ⟨k, hk⟩ := Nat.exists_eq_add_of_le' hb
  simp only [takeCond, takeByte_cons, decode_ok_bind, hk]
  rfl

/-- Settles O57: an unassigned tag has no fields, and the condition code is the first field after its tag. -/
theorem unassignedNumbersRefused : Obligations.UnassignedNumbersRefused := by
  refine ⟨fun b rest hb => ?_, fun b rest hb => ⟨?_, ?_⟩⟩
  · simp only [decode, takeByte_cons, decode_ok_bind, takeFields_unassigned hb]; rfl
  · show (take2 .setb takeCond takeLocation (b :: rest) >>= _) = _
    simp only [take2, takeCond_unassigned hb]; rfl
  · show (take2 .j takeCond takeLblOperand (b :: rest) >>= _) = _
    simp only [take2, takeCond_unassigned hb]; rfl

/-- Settles O58: five fixed byte strings, decoded. -/
theorem sampleTermsDecode : Obligations.SampleTermsDecode := by
  unfold Obligations.SampleTermsDecode
  decide

end Sys2Proof.Proofs
end

section
/-! PROOFS. Sub, Cmp and Imul (40_arithmetic.md R82, R83, 44_control_flow.md R120): their flags over the words
and over the exact results, and their rules. -/

namespace Sys2Proof.Proofs

open Sys2Proof.Machine

/-! ## Sub and Cmp -/

/-- Clauses c1 and c2 of R82 as propositions. -/
theorem flagsSub_eq (p : Config.Params) (v d : Word) :
    flagsSub p v d =
      { of := decide (((d.signExtend 64).msb = (-(v.signExtend 64)).msb ∧
            (d - v).msb ≠ (-(v.signExtend 64)).msb) ∨
          (v = 0x80000000#32 ∧ p.subMinIntOf = .source)),
        sf := (d - v).msb, zf := decide (d - v = 0#32) } := by
  simp only [flagsSub, flagsOf_eq, diff32_eq, sext64, bne, Bool.beq_eq_decide_eq, Bool.decide_and,
    Bool.decide_or, decide_not, ne_eq]

/-- Settles O3: Sub is `combine` with the wrapped difference and its flags. -/
theorem subRule : Obligations.SubRule := by
  refine binaryRule_of_combine (fun _ _ => rfl) fun s src dst => ?_
  simp only [exec, execSub, combine, flagsSub_eq, diff32_eq]

/-- Everything Cmp can do. -/
theorem cmp_next {s t : State} {src2 src1 : Operand} :
    exec (.cmp src2 src1) s = .next t ↔ illFormed s (.cmp src2 src1) = none ∧
      ∃ v d, value s src2 = .ok v ∧ value s src1 = .ok d ∧
        t = advance s (s.setFlags (flagsSub s.params v d)) := by
  refine (runTerm_next _ _ _ _).trans (and_congr_right' ?_)
  simp only [bind_ok, Except.ok.injEq]
  constructor
  · rintro ⟨v, hv, d, hd, rfl⟩; exact ⟨v, d, hv, hd, rfl⟩
  · rintro ⟨v, d, hv, hd, rfl⟩; exact ⟨v, hv, d, hd, rfl⟩

/-- Settles O17: Cmp reads its operands in the order of their names and sets the flags of Sub. -/
theorem cmpRule : Obligations.CmpRule := by
  intro s src2 src1
  refine ⟨fun r hr => runTerm_illFormed _ _ _ r hr,
    fun hi => ⟨fun f hf => ?_, fun v f hv hf => ?_, fun v d hv hd => ?_⟩⟩
  · exact runTerm_error _ _ _ f hi (by simp only [hf, error_bind])
  · exact runTerm_error _ _ _ f hi (by simp only [hv, hf, ok_bind, error_bind])
  · refine cmp_next.mpr ⟨hi, v, d, hv, hd, ?_⟩
    simp only [flagsSub_eq, BitVec.sub_eq_iff_eq_add, BitVec.zero_add, advance]

/-! ## Imul -/

/-- The 64-bit product is a sign-extended word exactly when it fits one (40_arithmetic.md R83). -/
theorem product_overflow_iff (v d : Word) :
    product64 v d ≠ sext64 (trunc32 (product64 v d)) ↔
      d.toInt * v.toInt < -2147483648 ∨ 2147483647 < d.toInt * v.toInt := by
  rw [Ne, ← BitVec.toInt_inj, product64_toInt, sext64_toInt, product32_eq, BitVec.toInt_mul, Int.bmod_def]
  generalize d.toInt * v.toInt = p
  split <;> omega

theorem flagsImul_eq (v d : Word) (n : Nat) :
    flagsImul v d n =
      { of := decide (d.toInt * v.toInt < -2147483648 ∨ 2147483647 < d.toInt * v.toInt),
        sf := Config.freeBit n, zf := Config.freeBit (n + 1) } := by
  simp only [flagsImul, bne, Bool.beq_eq_decide_eq, ← decide_not, ← product_overflow_iff]

/-- Settles O4: a well-formed Imul has a register as DEST, which can be read and written. -/
theorem imulRule : Obligations.ImulRule := by
  intro s src dst
  refine ⟨fun r hr => runTerm_illFormed _ _ _ r hr, fun hi => ?_⟩
  obtain ⟨r, rfl⟩ := imul_dst_of_wellFormed hi
  refine ⟨r, rfl, fun f hf => ?_, fun v hv => ?_⟩
  · exact runTerm_error _ _ _ f hi (by simp only [hf, error_bind])
  · refine runTerm_ok _ _ _ _ hi ?_
    simp only [hv, value_reg, store_reg, ok_bind, product32_eq, flagsImul_eq, advance]

end Sys2Proof.Proofs
end

section
/-! PROOFS. Sar, Shl, Shr and Setb (42_bit_manipulation.md): the shifts as division and multiplication, the
flags by the count, and the rules. -/

namespace Sys2Proof.Proofs

open Sys2Proof.Machine Sys2Proof.Claims

/-! ## Shift results -/

theorem sshiftRight_eq (d : Word) (n : Nat) : d.sshiftRight n = BitVec.ofInt 32 (d.toInt / 2 ^ n) := by
  rw [BitVec.sshiftRight, Int.shiftRight_eq_div_pow]; norm_cast

theorem ushiftRight_eq (d : Word) (n : Nat) : d >>> n = BitVec.ofNat 32 (d.toNat / 2 ^ n) := by
  apply BitVec.eq_of_toNat_eq
  rw [BitVec.toNat_ushiftRight, BitVec.toNat_ofNat, Nat.shiftRight_eq_div_pow,
    Nat.mod_eq_of_lt (Nat.lt_of_le_of_lt (Nat.div_le_self _ _) d.isLt)]

theorem shiftLeft_eq (d : Word) (n : Nat) : d <<< n = d * BitVec.ofNat 32 (2 ^ n) := by
  rw [BitVec.shiftLeft_eq_mul_twoPow]
  congr 1
  exact BitVec.eq_of_toNat_eq (by rw [BitVec.toNat_twoPow, BitVec.toNat_ofNat])

/-! ## Flags by the count -/

/-- No flag for a count of 0, OF apart for a count of 1, OF kept above. -/
theorem flagsShift_afterShift (old : Flags) (n : Nat) (r : Word) (overflow1 : Bool) :
    AfterShift old n r overflow1 (flagsShift old n r overflow1) := by
  refine ⟨fun h => ?_, fun h => ?_, fun h => ?_, fun h => ?_⟩
  · simp only [flagsShift, h, if_true]
  · simp only [flagsShift, h, if_false, flagsOf_eq, and_self]
  · simp only [flagsShift, h, one_ne_zero, if_false, if_true, flagsOf]
  · simp only [flagsShift, show n ≠ 0 by omega, show n ≠ 1 by omega, if_false, flagsOf]

/-! ## Rules -/

/-- R70 reason 4: the AMT of a well-formed shift is an Imm or ECX, so it has a value. -/
theorem amount_value_of_wellFormed {s : State} {i : Instr} {a : Operand} (hi : illFormed s i = none)
    (ha : i.amount = some a) : ∃ c, value s a = .ok c := by
  have hb := breaks_eq_false_of_wellFormed hi .badAmount (by decide)
  have hamt : a.isAmount = true := by simpa [Instr.breaks, ha] using hb
  cases a with
  | imm w => exact ⟨w, rfl⟩
  | reg r => exact ⟨s.reg r, rfl⟩
  | ind m => cases hamt
  | lbl l => cases hamt

/-- The rule of an instruction that is `shift` of its AMT and its location. -/
theorem shiftRule_of_shift {mk : Operand → Operand → Instr} {result : Word → Nat → Word}
    {overflow1 : Word → Bool} (hamt : ∀ amt dst, (mk amt dst).amount = some amt)
    (hslot : ∀ amt dst, (mk amt dst).locationSlot = some dst)
    (hexec : ∀ s amt dst,
      exec (mk amt dst) s = runTerm s (mk amt dst) (shift s amt dst result overflow1)) :
    ShiftRule mk result overflow1 := by
  intro s amt dst
  rw [hexec]
  refine ⟨fun r hr => runTerm_illFormed _ _ _ r hr, fun hi => ?_⟩
  obtain ⟨c, hc⟩ := amount_value_of_wellFormed hi (hamt amt dst)
  refine ⟨c, hc, fun f hf => ?_, fun n f hn hf => ?_, fun n d hn hd => ?_⟩
  · exact runTerm_error _ _ _ f hi (by simp only [shift, hc, hf, ok_bind, error_bind])
  · exact runTerm_error _ _ _ f hi (by simp only [shift, hc, hn, hf, ok_bind, error_bind])
  · obtain ⟨u, hu⟩ := store_of_value (isLocation_of_wellFormed hi (hslot amt dst)) hd (result d n)
    exact ⟨u, _, hu, flagsShift_afterShift _ _ _ _,
      runTerm_ok _ _ _ _ hi ((shift_ok _ _ _ _ _ _).mpr ⟨c, n, d, u, hc, hn, hd, hu, rfl⟩)⟩

/-- Settles O9: Sar is `shift` with floor division and OF 0 after a count of 1. -/
theorem sarRule : Obligations.SarRule := by
  refine shiftRule_of_shift (fun _ _ => rfl) (fun _ _ => rfl) fun s amt dst => ?_
  simp only [exec, execSar, sshiftRight_eq]

/-- Settles O11: Shr is `shift` with floor division and the old bit 31 after a count of 1. -/
theorem shrRule : Obligations.ShrRule := by
  refine shiftRule_of_shift (fun _ _ => rfl) (fun _ _ => rfl) fun s amt dst => ?_
  simp only [exec, execShr, ushiftRight_eq]

/-- A draw is taken for a count of 1, equal top bits and the policy `Either` (R101). -/
theorem shlDraws_eq (p : Config.Params) (n : Nat) (d : Word) :
    shlDraws p n d = decide (n = 1 ∧ d.getLsbD 31 = d.getLsbD 30 ∧ p.shl1Of = .either) := by
  simp only [shlDraws, Bool.beq_eq_decide_eq, Bool.decide_and, Bool.and_assoc]

theorem shl1Overflow_of_ne (p : Config.Params) (old : Bool) {d : Word} (draws : Nat)
    (h : d.getLsbD 31 ≠ d.getLsbD 30) : shl1Overflow p old d draws = true := by
  rw [shl1Overflow, if_pos (bne_iff_ne.mpr h)]

/-! OF after a count of 1 with equal top bits is `Shl1OfPolicy`'s (R101). -/

section
variable (p : Config.Params) (old : Bool) {d : Word} (draws : Nat)

theorem shl1Overflow_of_unchanged (h : d.getLsbD 31 = d.getLsbD 30) (hp : p.shl1Of = .unchanged) :
    shl1Overflow p old d draws = old := by
  rw [shl1Overflow, if_neg (by simpa using h), hp]

theorem shl1Overflow_of_cleared (h : d.getLsbD 31 = d.getLsbD 30) (hp : p.shl1Of = .cleared) :
    shl1Overflow p old d draws = false := by
  rw [shl1Overflow, if_neg (by simpa using h), hp]

theorem shl1Overflow_of_either (h : d.getLsbD 31 = d.getLsbD 30) (hp : p.shl1Of = .either) :
    shl1Overflow p old d draws = (old && Config.freeBit draws) := by
  rw [shl1Overflow, if_neg (by simpa using h), hp]

end

/-- Settles O10: Shl reads as `shift` does and takes a draw besides. -/
theorem shlRule : Obligations.ShlRule := by
  intro s amt dst
  refine ⟨fun r hr => runTerm_illFormed _ _ _ r hr, fun hi => ?_⟩
  obtain ⟨c, hc⟩ := amount_value_of_wellFormed hi rfl
  refine ⟨c, hc, fun f hf => ?_, fun n f hn hf => ?_, fun n d hn hd => ?_⟩
  · exact runTerm_error _ _ _ f hi (by simp only [hc, hf, ok_bind, error_bind])
  · exact runTerm_error _ _ _ f hi (by simp only [hc, hn, hf, ok_bind, error_bind])
  · obtain ⟨u, hu⟩ := store_of_value (isLocation_of_wellFormed hi rfl) hd (d * BitVec.ofNat 32 (2 ^ n))
    refine ⟨u, _, _, shl1Overflow s.params s.flags.of d s.draws, hu, flagsShift_afterShift _ _ _ _,
      shl1Overflow_of_ne _ _ _, shl1Overflow_of_unchanged _ _ _, shl1Overflow_of_cleared _ _ _,
      shl1Overflow_of_either _ _ _, rfl, runTerm_ok _ _ _ _ hi ?_⟩
    simp only [hc, hn, hd, hu, ok_bind, shiftLeft_eq, shlDraws_eq, decide_eq_true_eq, advance]

/-- Settles O12: Setb is `readModifyWrite` with the low byte replaced and the flags of before. -/
theorem setbRule : Obligations.SetbRule := by
  refine fun cc => unaryRule_of_readModifyWrite (fun _ => rfl) fun s dst => ?_
  simp only [exec, execSetb, readModifyWrite_same_flags, setLowByte_eq]

end Sys2Proof.Proofs
end

section
/-! PROOFS. Push, Pop and Call (43_data_movement.md R112, R113, 44_control_flow.md R122): which state each
`EspOperandPolicy` evaluates the operand in, and the rules. -/

namespace Sys2Proof.Proofs

open Sys2Proof.Machine

/-! ## The states operands are evaluated in -/

theorem pushView_of_ne {s : State} (h : s.params.espOperand ≠ .sequential) : pushView s = s := by
  unfold pushView
  cases hp : s.params.espOperand with
  | refuse => rfl
  | ia32Order => rfl
  | sequential => exact absurd hp h

theorem pushView_of_sequential {s : State} (h : s.params.espOperand = .sequential) :
    pushView s = espDown s := by
  rw [pushView, h]

/-- The two clauses in which the rules of Push and Call fix the state of evaluation describe `pushView`. -/
theorem eq_pushView {s view : State} (hne : s.params.espOperand ≠ .sequential → view = s)
    (heq : s.params.espOperand = .sequential → view = s.setReg .esp (s.reg .esp - 4#32)) :
    view = pushView s := by
  by_cases h : s.params.espOperand = .sequential
  · rw [heq h, pushView_of_sequential h]; rfl
  · rw [hne h, pushView_of_ne h]

theorem popView_of_ne {s : State} (h : s.params.espOperand ≠ .ia32Order) : popView s = s := by
  unfold popView
  cases hp : s.params.espOperand with
  | refuse => rfl
  | ia32Order => exact absurd hp h
  | sequential => rfl

theorem popView_of_ia32Order {s : State} (h : s.params.espOperand = .ia32Order) : popView s = espUp s := by
  rw [popView, h]

theorem popFinish_of_ne {s : State} (t : State) (h : s.params.espOperand ≠ .ia32Order) :
    popFinish s t = espUp t := by
  unfold popFinish
  cases hp : s.params.espOperand with
  | refuse => rfl
  | ia32Order => exact absurd hp h
  | sequential => rfl

theorem popFinish_of_ia32Order {s : State} (t : State) (h : s.params.espOperand = .ia32Order) :
    popFinish s t = t := by
  rw [popFinish, h]

theorem callTarget_of_ne {t : State} (src : Operand) (early : Word)
    (h : t.params.espOperand ≠ .sequential) : callTarget src t early = .ok early := by
  unfold callTarget
  cases hp : t.params.espOperand with
  | refuse => rfl
  | ia32Order => rfl
  | sequential => exact absurd hp h

theorem callTarget_of_sequential {t : State} (src : Operand) (early : Word)
    (h : t.params.espOperand = .sequential) : callTarget src t early = value t src := by
  rw [callTarget, h]

/-! ## Push -/

/-- Settles O15: Push answers as its operand's value and then the write of the slot do. -/
theorem pushRule : Obligations.PushRule := by
  intro s src
  refine ⟨fun r hr => runTerm_illFormed _ _ _ r hr, fun hi view hne heq => ?_⟩
  obtain rfl := eq_pushView hne heq
  refine ⟨fun f hf => ?_, fun v hv hslot => ?_, fun v hv hslot => ?_⟩
  · exact runTerm_error _ _ _ f hi (by simp only [hf, error_bind])
  · have hwrite := (memWrite_error s (s.reg .esp - 4#32) v _).mpr ⟨hslot, rfl⟩
    exact runTerm_error _ _ _ _ hi (by simp only [hv, hwrite, ok_bind, error_bind, pushSlot])
  · have hwrite := (memWrite_ok s _ (s.reg .esp - 4#32) v).mpr ⟨hslot, rfl⟩
    exact runTerm_ok _ _ _ _ hi (by simp only [hv, hwrite, ok_bind, pushSlot, advance])

/-! ## Pop -/

/-- A well-formed Pop at a valid ESP answers as the store to DEST, in the state Pop evaluates it in. -/
theorem exec_pop_of_store {s : State} {dst : Operand} (hi : illFormed s (.pop dst) = none)
    (hesp : validAddr s.params (s.reg .esp) = true) :
    (∀ f, store (popView s) dst (readWord s.mem (s.reg .esp)) = .error f → exec (.pop dst) s = .fault f) ∧
    ∀ u, store (popView s) dst (readWord s.mem (s.reg .esp)) = .ok u →
      exec (.pop dst) s = .next (advance s (popFinish s u)) := by
  have hread := (memRead_ok s (s.reg .esp) _).mpr ⟨hesp, rfl⟩
  exact ⟨fun f hf => runTerm_error _ _ _ f hi (by simp only [hread, hf, ok_bind, error_bind]),
    fun u hu => runTerm_ok _ _ _ _ hi (by simp only [hread, hu, ok_bind])⟩

/-- Settles O16: each policy is one value of `popView` and `popFinish`. -/
theorem popRule : Obligations.PopRule := by
  intro s dst
  refine ⟨fun r hr => runTerm_illFormed _ _ _ r hr,
    fun hi => ⟨fun hesp => ?_, fun hesp hp => ?_, fun hesp hp => ?_⟩⟩
  · have hread := (memRead_error s (s.reg .esp) _).mpr ⟨hesp, rfl⟩
    exact runTerm_error _ _ _ _ hi (by simp only [hread, error_bind])
  · obtain ⟨herror, hok⟩ := exec_pop_of_store hi hesp
    rw [popView_of_ne hp] at herror hok
    refine ⟨herror, fun hw => ?_⟩
    obtain ⟨u, hu⟩ := store_of_writable s dst (readWord s.mem (s.reg .esp)) hw
    exact ⟨u, hu, by rw [hok u hu, popFinish_of_ne u hp]; rfl⟩
  · obtain ⟨herror, hok⟩ := exec_pop_of_store hi hesp
    rw [popView_of_ia32Order hp] at herror hok
    refine ⟨herror, fun hw => ?_⟩
    obtain ⟨u, hu⟩ := store_of_writable _ dst (readWord s.mem (s.reg .esp)) hw
    exact ⟨u, hu, by rw [hok u hu, popFinish_of_ia32Order u hp]; rfl⟩

/-! ## Call -/

/-- Settles O19: Call answers as its operand's value before the push, then the push; under `Sequential` the
operand then has a value, because the push changes no validity of an address (`value_pushed_error`). -/
theorem callRule : Obligations.CallRule := by
  intro s src
  refine ⟨fun r hr => runTerm_illFormed _ _ _ r hr, fun hi view pushed hne heq hpushed => ?_⟩
  obtain rfl := eq_pushView hne heq
  refine ⟨fun f hf => ?_, fun v hv hslot => ?_, fun v hv hslot => ?_⟩
  · exact runTerm_error _ _ _ f hi (by simp only [callBody, hf, error_bind])
  · have hwrite := (memWrite_error s (s.reg .esp - 4#32) s.nextPc _).mpr ⟨hslot, rfl⟩
    exact runTerm_error _ _ _ _ hi
      (by simp only [callBody, pushReturn, hv, hwrite, ok_bind, error_bind, pushSlot])
  · have hpush : pushReturn s = .ok pushed := (pushReturn_ok s pushed).mpr ⟨hslot, hpushed⟩
    have hparams : pushed.params = s.params := (pushReturn_effect s pushed hpush).params
    have hexec : ∀ a, callTarget src pushed v = .ok a → exec (.call src) s = .next (pushed.setPc a) :=
      fun a ha => runTerm_ok _ _ _ _ hi ((callBody_ok _ _ _).mpr ⟨v, pushed, a, hv, hpush, ha, rfl⟩)
    refine ⟨fun hp => hexec v (callTarget_of_ne src v (hparams ▸ hp)), fun hp => ?_⟩
    have htarget : ∀ a, value pushed src = .ok a → exec (.call src) s = .next (pushed.setPc a) :=
      fun a ha => hexec a ((callTarget_of_sequential src v (hparams ▸ hp)).trans ha)
    cases ha : value pushed src with
    | ok a => exact ⟨a, rfl, htarget a ha⟩
    | error f =>
      rw [hpushed] at ha
      have hdown := (value_pushed_error s s.nextPc src f).mp ha
      rw [pushView_of_sequential hp, hdown] at hv
      cases hv

end Sys2Proof.Proofs
end

section
/-! PROOFS. Operands and memory (30_encoding.md section 2, 20_memory.md section 1) and the shift count
(42_bit_manipulation.md R104). -/

namespace Sys2Proof.Proofs

open Sys2Proof.Machine Sys2Proof.Claims

/-! ## Valid addresses -/

theorem validAddr_iff (p : Config.Params) (a : Word) :
    validAddr p a = true ↔ a.toNat % 4 = 0 ∧ p.memLo.toNat ≤ a.toNat ∧ a.toNat ≤ p.memHi.toNat := by
  simp only [validAddr, Bool.and_eq_true, decide_eq_true_eq, and_assoc]

theorem validAddr_eq_false_iff (p : Config.Params) (a : Word) :
    validAddr p a = false ↔ a.toNat % 4 ≠ 0 ∨ a.toNat < p.memLo.toNat ∨ p.memHi.toNat < a.toNat := by
  rw [← Bool.not_eq_true, validAddr_iff]; omega

/-- Settles O24: each operand kind by its own law, an Ind by the read at its effective address. -/
theorem operandValues : Obligations.OperandValues := by
  refine fun s => ⟨value_imm s, value_reg s, value_lbl s, fun l hl => ?_, fun m a ha h4 hlo hhi => ?_,
    fun m a ha hbad => ?_⟩
  · simp only [value, hl]
  · rw [value_ind s m a ha, memRead_ok]
    exact ⟨(validAddr_iff _ _).mpr ⟨h4, hlo, hhi⟩, rfl⟩
  · rw [value_ind s m a ha, memRead_error]
    exact ⟨(validAddr_eq_false_iff _ _).mpr hbad, rfl⟩

/-! ## Effective addresses -/

theorem baseValue_toNat (s : State) (b : Option Reg) :
    (baseValue s b).toNat = (b.map fun r => (s.reg r).toNat).getD 0 := by
  cases b <;> rfl

theorem indexValue_toNat (s : State) (x : Option (Reg × Word)) :
    (indexValue s x).toNat = (x.map fun p => (s.reg p.1).toNat * p.2.toNat).getD 0 % 4294967296 := by
  cases x with
  | none => simp only [indexValue, Option.map_none, Option.getD_none, BitVec.toNat_zero, Nat.zero_mod]
  | some p => exact BitVec.toNat_mul _ _

/-- Settles O25: the displacement has the value given, and the wrapped sum of words is the sum modulo 2^32. -/
theorem effectiveAddressFormula : Obligations.EffectiveAddressFormula := by
  intro s m d hd
  have hdisp : ∃ w, dispValue s m.disp = .ok w ∧ w.toNat = d := by
    rcases hd with ⟨hm, rfl⟩ | ⟨w, hm, rfl⟩ | ⟨l, a, hm, ha, rfl⟩
    · exact ⟨0#32, by rw [hm]; rfl, rfl⟩
    · exact ⟨w, by rw [hm]; rfl, rfl⟩
    · exact ⟨a, by simp only [hm, dispValue, ha], rfl⟩
  obtain ⟨w, hw, rfl⟩ := hdisp
  refine ⟨_, bind_ok.mpr ⟨w, hw, rfl⟩, ?_⟩
  simp only [BitVec.toNat_add, baseValue_toNat, indexValue_toNat]
  omega

/-! ## Stores and memory accesses -/

theorem sameControl_of_sameBut {s t : State} (h : SameBut s t) : SameControl s t :=
  ⟨h.flags, h.pc, h.draws, h.status, h.code, h.labels, h.params⟩

/-- Writing one word leaves every byte outside it. -/
theorem setMem_writeWord_sameOutside (s : State) (a v : Word) :
    SameOutside s (s.setMem (writeWord s.mem a v)) a :=
  fun b hb => readByte_writeWord_other s.mem a v b hb

/-- Settles O26: a store to a register is `setReg`, one to an Ind is the memory write at its address. -/
theorem storeWritesTheLocation : Obligations.StoreWritesTheLocation := by
  refine fun s v => ⟨fun r => ?_, fun m a ha hv => ?_, fun m a ha hv => ?_, fun i => rfl, fun l => rfl⟩
  · exact ⟨s.setReg r v, rfl, State.setReg_reg_same s r v, fun q hq => State.setReg_reg_other s r q v hq, rfl,
      sameControl_of_sameBut (setReg_sameBut s r v)⟩
  · exact ⟨s.setMem (writeWord s.mem a v), (store_ind s m a v ha).trans ((memWrite_ok _ _ _ _).mpr ⟨hv, rfl⟩),
      readWord_writeWord_same _ _ _, setMem_writeWord_sameOutside s a v, rfl,
      sameControl_of_sameBut (setMem_sameBut s _)⟩
  · rw [store_ind s m a v ha, memWrite_error]
    exact ⟨hv, rfl⟩

/-- Two valid addresses are the same or their words are disjoint, and a read at an address that is not valid
faults before and after the write. -/
theorem memRead_writeWord_other (s : State) {a c : Word} (v : Word) (ha : validAddr s.params a = true)
    (hc : c ≠ a) : memRead (s.setMem (writeWord s.mem a v)) c = memRead s c := by
  unfold memRead
  rw [State.setMem_params, State.setMem_mem]
  cases hvc : validAddr s.params c with
  | false => simp only [Bool.false_eq_true, if_false]
  | true => rw [readWord_writeWord_other _ _ _ _ (validAddr_disjoint _ _ _ ha hvc hc.symm)]

/-- Settles O27: an address is valid or it faults, and a read of another address does not see the write. -/
theorem memoryReadsAndWrites : Obligations.MemoryReadsAndWrites := by
  intro s a v
  rw [← validAddr_iff, Bool.not_eq_true]
  exact ⟨fun ha => ⟨s.setMem (writeWord s.mem a v), (memWrite_ok _ _ _ _).mpr ⟨ha, rfl⟩,
    (memRead_ok _ _ _).mpr ⟨ha, (readWord_writeWord_same _ _ _).symm⟩,
    fun c hc => memRead_writeWord_other s v ha hc⟩,
    fun ha => ⟨(memRead_error _ _ _).mpr ⟨ha, rfl⟩, (memWrite_error _ _ _ _).mpr ⟨ha, rfl⟩⟩⟩

/-! ## The shift count -/

/-- Settles O28: a count modulo 32 is its low five bits. -/
theorem shiftCountByPolicy : Obligations.ShiftCountByPolicy := by
  refine fun s c => ⟨fun hp hc => ?_, fun hp hc => ?_, fun hp => ?_⟩
  · simp only [shiftCount, hp, hc, if_true]
  · simp only [shiftCount, hp, Nat.not_lt.mpr hc, if_false]
  · simp only [shiftCount, hp, BitVec.extractLsb'_toNat, Nat.shiftRight_zero]

end Sys2Proof.Proofs
end

section
/-! PROOFS. Conditions and overflow (30_encoding.md R60, R61, 40_arithmetic.md R80 to R82): the condition codes
over the flags, OF as signed overflow, and the codes after Cmp. -/

namespace Sys2Proof.Proofs

open Sys2Proof.Machine

/-- Settles O29: each code for each of its flags' values. -/
theorem conditionCodeTable : Obligations.ConditionCodeTable := by
  rintro ⟨of, sf, zf⟩
  revert of sf zf
  decide

/-! ## Wrapped results and exact results -/

theorem msb_iff_toInt_neg {n : Nat} (x : BitVec n) : x.msb = true ↔ x.toInt < 0 := by
  rw [BitVec.msb_eq_toInt, decide_eq_true_iff]

/-- `MIN_INT` is the one word whose negation is out of range. -/
theorem eq_minInt_iff (d : Word) : d = 0x80000000#32 ↔ d.toInt = -2147483648 := by
  rw [← BitVec.toInt_inj]; rfl

/-- A wrapped sum is the exact one, or off by 2^32 where that is out of range. -/
theorem toInt_add_cases (d v : Word) :
    (d + v).toInt = if d.toInt + v.toInt < -2147483648 then d.toInt + v.toInt + 4294967296
      else if 2147483647 < d.toInt + v.toInt then d.toInt + v.toInt - 4294967296
      else d.toInt + v.toInt := by
  have hv1 := v.le_toInt; have hv2 := v.toInt_lt
  have hd1 := d.le_toInt; have hd2 := d.toInt_lt
  rw [BitVec.toInt_add, Int.bmod_def]
  split <;> split <;> omega

/-- A wrapped difference is the exact one, or off by 2^32 where that is out of range. -/
theorem toInt_sub_cases (d v : Word) :
    (d - v).toInt = if d.toInt - v.toInt < -2147483648 then d.toInt - v.toInt + 4294967296
      else if 2147483647 < d.toInt - v.toInt then d.toInt - v.toInt - 4294967296
      else d.toInt - v.toInt := by
  have hv1 := v.le_toInt; have hv2 := v.toInt_lt
  have hd1 := d.le_toInt; have hd2 := d.toInt_lt
  rw [BitVec.toInt_sub, Int.bmod_def]
  split <;> split <;> omega

/-- 64 bits hold the negation of every word. -/
theorem neg_sext64_toInt (v : Word) : (-sext64 v).toInt = -v.toInt := by
  have hv1 := v.le_toInt; have hv2 := v.toInt_lt
  rw [BitVec.toInt_neg, sext64_toInt]
  exact Int.bmod_eq_of_le (by omega) (by omega)

/-! ## OF as signed overflow -/

/-- Like signs and an unlike result mean overflow: the two tests on signs as one on the numbers. -/
theorem sign_tests_iff {x y r : Bool} {a b c : Int} (hx : x = true ↔ a < 0) (hy : y = true ↔ b < 0)
    (hr : r = true ↔ c < 0) : (x = y ∧ r ≠ y) ↔ (a < 0 ∧ b < 0 ∧ 0 ≤ c) ∨ (0 ≤ a ∧ 0 ≤ b ∧ c < 0) := by
  rw [← Int.not_lt, ← Int.not_lt, ← Int.not_lt, ← hx, ← hy, ← hr]
  clear hx hy hr
  revert x y r; decide

theorem flagsNeg_of_iff (d : Word) : (flagsNeg d).of = true ↔ 2147483647 < -d.toInt := by
  have hd := d.le_toInt
  rw [flagsNeg_eq, decide_eq_true_iff, eq_minInt_iff]
  omega

theorem flagsAdd_of_iff (v d : Word) : (flagsAdd v d).of = true ↔
    d.toInt + v.toInt < -2147483648 ∨ 2147483647 < d.toInt + v.toInt := by
  have hv1 := v.le_toInt; have hv2 := v.toInt_lt
  have hd1 := d.le_toInt; have hd2 := d.toInt_lt
  have hsum := toInt_add_cases d v
  rw [flagsAdd_eq, decide_eq_true_iff, eq_comm, sign_tests_iff (msb_iff_toInt_neg d) (msb_iff_toInt_neg v)
    (msb_iff_toInt_neg (d + v))]
  split_ifs at hsum <;> omega

/-- Clause c1 of R82 is signed overflow of the difference. -/
theorem flagsSub_of_iff (p : Config.Params) (v d : Word) : (flagsSub p v d).of = true ↔
    (d.toInt - v.toInt < -2147483648 ∨ 2147483647 < d.toInt - v.toInt) ∨
      (v = 0x80000000#32 ∧ p.subMinIntOf = .source) := by
  have hv1 := v.le_toInt; have hv2 := v.toInt_lt
  have hd1 := d.le_toInt; have hd2 := d.toInt_lt
  have hdiff := toInt_sub_cases d v
  rw [flagsSub_eq, decide_eq_true_iff]
  refine or_congr_left ?_
  refine (sign_tests_iff (msb_iff_toInt_neg (sext64 d)) (msb_iff_toInt_neg (-sext64 v))
    (msb_iff_toInt_neg (d - v))).trans ?_
  rw [sext64_toInt, neg_sext64_toInt]
  split_ifs at hdiff <;> omega

/-- The flags `combine` leaves are those of the values of its operands. -/
theorem combine_flags {s t : State} {src dst : Operand} {f : Word → Word → Word} {g : Word → Word → Flags}
    {v d : Word} (h : combine s src dst f g = .ok t) (hv : value s src = .ok v) (hd : value s dst = .ok d) :
    t.flags = g v d := by
  obtain ⟨v', d', u, hv', hd', -, rfl⟩ := (combine_ok _ _ _ _ _ _).mp h
  cases hv.symm.trans hv'
  cases hd.symm.trans hd'
  rfl

/-- The flags Neg leaves are those of the value of DEST. -/
theorem neg_flags {s t : State} {dst : Operand} {d : Word} (h : exec (.neg dst) s = .next t)
    (hd : value s dst = .ok d) : t.flags = flagsNeg d := by
  obtain ⟨d', hd', h⟩ := bind_ok.mp ((runTerm_next _ _ _ _).mp h).2
  obtain ⟨u, -, h⟩ := bind_ok.mp h
  cases hd.symm.trans hd'
  cases h; rfl

/-- Settles O31: OF of each instruction's flags, at the values of its operands. -/
theorem overflowIsSignedOverflow : Obligations.OverflowIsSignedOverflow := by
  intro s t src dst v d hv hd
  refine ⟨fun h => ?_, fun h => ?_, fun h => ?_⟩
  · rw [neg_flags h hd]; exact flagsNeg_of_iff d
  · rw [combine_flags ((runTerm_next _ _ _ _).mp h).2 hv hd]; exact flagsAdd_of_iff v d
  · rw [combine_flags ((runTerm_next _ _ _ _).mp h).2 hv hd]; exact flagsSub_of_iff s.params v d

/-! ## The codes after Cmp -/

theorem flagsSub_zf_iff (p : Config.Params) (v d : Word) : (flagsSub p v d).zf = true ↔ d = v := by
  rw [flagsSub_eq, decide_eq_true_iff, BitVec.sub_eq_iff_eq_add, BitVec.zero_add]

theorem flagsSub_sf_iff (p : Config.Params) (v d : Word) : (flagsSub p v d).sf = true ↔ (d - v).toInt < 0 := by
  rw [flagsSub_eq]; exact msb_iff_toInt_neg (d - v)

/-- Slt holds where exactly one of SF and OF is set. -/
theorem cond_slt_iff (f : Flags) : cond f .slt = true ↔ ¬ (f.sf = true ↔ f.of = true) := by
  show (f.sf != f.of) = true ↔ _
  rw [bne_iff_ne, ne_eq, Bool.eq_iff_iff]

/-- Where OF is that of the exact difference, Slt compares the operands as signed numbers. -/
theorem cond_slt_flagsSub (p : Config.Params) (v d : Word)
    (h : v ≠ 0x80000000#32 ∨ d.msb = false ∨ p.subMinIntOf = .trueOverflow) :
    cond (flagsSub p v d) .slt = true ↔ d.toInt < v.toInt := by
  have hv1 := v.le_toInt; have hv2 := v.toInt_lt
  have hd1 := d.le_toInt; have hd2 := d.toInt_lt
  have hclause : (v = 0x80000000#32 ∧ p.subMinIntOf = .source) → v.toInt = -2147483648 ∧ 0 ≤ d.toInt := by
    rintro ⟨hv, hp⟩
    rcases h with h | h | h
    · exact absurd hv h
    · exact ⟨(eq_minInt_iff v).mp hv, Int.not_lt.mp fun hneg => by simp [(msb_iff_toInt_neg d).mpr hneg] at h⟩
    · rw [hp] at h; cases h
  have hdiff := toInt_sub_cases d v
  rw [cond_slt_iff, flagsSub_sf_iff, flagsSub_of_iff]
  by_cases hmin : v = 0x80000000#32 ∧ p.subMinIntOf = .source
  · obtain ⟨hv, hd⟩ := hclause hmin
    rw [iff_true_right (Or.inr hmin)]
    split_ifs at hdiff <;> omega
  · simp only [hmin, or_false]
    split_ifs at hdiff <;> omega

/-- Settles O30: Cmp leaves the flags of the difference; Sge, Sle and Sgt are Slt and Eq combined
(`conditionCodeTable`). -/
theorem compareThenCondition : Obligations.CompareThenCondition := by
  intro s t src2 src1 v d h hv hd
  obtain ⟨-, v', d', hv', hd', rfl⟩ := cmp_next.mp h
  cases hv.symm.trans hv'
  cases hd.symm.trans hd'
  rw [advance_flags, State.setFlags_flags]
  obtain ⟨heq, -, hnotEq, -, -, hsge, hsle, hsgt⟩ := conditionCodeTable (flagsSub s.params v d)
  have hzf := flagsSub_zf_iff s.params v d
  refine ⟨heq.trans hzf, by rw [hnotEq, ← Bool.not_eq_true, hzf], fun hc => ?_, fun ⟨hmin, hneg, hp⟩ => ?_⟩
  · have hslt := cond_slt_flagsSub s.params v d hc
    have hint : d = v ↔ d.toInt = v.toInt := BitVec.toInt_inj.symm
    rw [hsgt, hsge, hsle, hslt, heq, hzf, hint]
    exact ⟨Iff.rfl, by omega, by omega, by omega⟩
  · have hmin' := (eq_minInt_iff v).mp hmin
    have hd1 := d.le_toInt
    have hd2 := (msb_iff_toInt_neg d).mp hneg
    have hdiff := toInt_sub_cases d v
    refine ⟨?_, by omega⟩
    rw [cond_slt_iff, flagsSub_sf_iff, flagsSub_of_iff]
    rw [iff_true_right (Or.inr ⟨hmin, hp⟩)]
    split_ifs at hdiff <;> omega

end Sys2Proof.Proofs
end

section
/-! PROOFS. The checks for well-formedness (30_encoding.md R62, R66 to R70): each check as its words, the
reported reason as the first that fails, and the operand table. -/

namespace Sys2Proof.Proofs

open Sys2Proof.Machine Sys2Proof.Claims

/-! ## Slots and kinds -/

theorem not_isLocation_iff (o : Operand) :
    o.isLocation = false ↔ (∃ w, o = .imm w) ∨ ∃ l, o = .lbl l := by
  cases o <;> simp [Operand.isLocation]

theorem isAmount_iff (o : Operand) : o.isAmount = true ↔ AmountOk o := by
  cases o <;> simp [Operand.isAmount, AmountOk]

theorem indexIsEsp_iff (o : Operand) :
    o.indexIsEsp = true ↔ ∃ m scale, o = .ind m ∧ m.index = some (.esp, scale) := by
  cases o <;> simp [Operand.indexIsEsp]

theorem mem_labels_iff (o : Operand) (l : Label) :
    l ∈ o.labels ↔ o = .lbl l ∨ ∃ m, o = .ind m ∧ m.disp = some (.label l) := by
  cases o with
  | imm w => simp [Operand.labels]
  | reg r => simp [Operand.labels]
  | lbl k => simp [Operand.labels, eq_comm]
  | ind m =>
    obtain ⟨base, index, disp⟩ := m
    rcases disp with _ | ⟨w | k⟩ <;> simp [Operand.labels, Disp.labels, eq_comm]

theorem mentionsEsp_iff (o : Operand) :
    o.mentionsEsp = true ↔ o = .reg .esp ∨ ∃ m, o = .ind m ∧ m.base = some .esp := by
  cases o <;> simp [Operand.mentionsEsp]

theorem espOk_iff (s : State) (o : Operand) :
    EspOk s o ↔ ¬ (s.params.espOperand = .refuse ∧ o.mentionsEsp = true) := by
  rw [mentionsEsp_iff, EspOk]
  simp only [not_and, not_or, not_exists, ne_eq]

theorem resolved_eq_false_iff (s : State) (l : Label) : s.resolved l = false ↔ s.labelAddr l = none := by
  rw [State.resolved, Option.isSome_eq_false_iff, Option.isNone_iff_eq_none]

theorem locationSlot_eq_some_iff (i : Instr) (d : Operand) :
    i.locationSlot = some d ↔ WritesOnly i d ∨ i = .pop d := by
  cases i <;> simp [Instr.locationSlot, WritesOnly]

theorem operandPair_eq_some_iff (i : Instr) (a b : Operand) : i.operandPair = some (a, b) ↔
    i ∈ [Instr.add a b, .sub a b, .and a b, .or a b, .xor a b, .mov a b, .cmp a b] := by
  cases i <;> simp [Instr.operandPair]

theorem amount_eq_some_iff (i : Instr) (a : Operand) :
    i.amount = some a ↔ ∃ d, i ∈ [Instr.sar a d, .shl a d, .shr a d] := by
  cases i <;> simp [Instr.amount, eq_comm]

theorem stackOperand_eq_some_iff (i : Instr) (o : Operand) :
    i.stackOperand = some o ↔ i ∈ [Instr.push o, .pop o, .call o] := by
  cases i <;> simp [Instr.stackOperand]

/-! ## The checks on the operands of Imul, Lea and J -/

section
variable (s : State) (i : Instr)

theorem imul_check_iff : ¬ i.breaks s.params.espOperand s.resolved .imulDestNotReg = true ↔
    ∀ v d, i = .imul v d → d.isReg = true := by
  cases i <;> simp [Instr.breaks]

theorem leaSource_check_iff : ¬ i.breaks s.params.espOperand s.resolved .leaSourceNotInd = true ↔
    ∀ m d, i = .lea m d → m.isInd = true := by
  cases i <;> simp [Instr.breaks]

theorem leaDest_check_iff : ¬ i.breaks s.params.espOperand s.resolved .leaDestNotReg = true ↔
    ∀ m d, i = .lea m d → d.isReg = true := by
  cases i <;> simp [Instr.breaks]

theorem target_check_iff : ¬ i.breaks s.params.espOperand s.resolved .targetNotLabel = true ↔
    ∀ cc t, i = .j cc t → t.isLbl = true := by
  cases i <;> simp [Instr.breaks]

end

/-! ## Each check in its own words -/

/-- A term breaks a check as R70's words for it say. -/
theorem breaks_iff_broken (s : State) (i : Instr) (r : IllFormedReason) :
    i.breaks s.params.espOperand s.resolved r = true ↔ Broken s i r := by
  cases r with
  | destNotLocation =>
    simp only [Instr.breaks, Option.any_eq_true, Bool.not_eq_true', not_isLocation_iff,
      locationSlot_eq_some_iff, Broken]
  | twoIndirect =>
    simp only [Instr.breaks, Option.any_eq_true, Bool.and_eq_true, isInd_iff, Broken]
    constructor
    · rintro ⟨⟨a, b⟩, hp, ⟨m, rfl⟩, n, rfl⟩
      exact ⟨m, n, (operandPair_eq_some_iff _ _ _).mp hp⟩
    · rintro ⟨m, n, h⟩
      exact ⟨(.ind m, .ind n), (operandPair_eq_some_iff _ _ _).mpr h, ⟨m, rfl⟩, n, rfl⟩
  | indexEsp =>
    simp only [Instr.breaks, List.any_eq_true, indexIsEsp_iff, Broken]
    constructor
    · rintro ⟨_, ho, m, scale, rfl, hm⟩; exact ⟨m, scale, ho, hm⟩
    · rintro ⟨m, scale, ho, hm⟩; exact ⟨_, ho, m, scale, rfl, hm⟩
  | badAmount =>
    simp only [Instr.breaks, Option.any_eq_true, Bool.not_eq_true', ← Bool.not_eq_true, isAmount_iff,
      amount_eq_some_iff, Broken]
    constructor
    · rintro ⟨a, ⟨d, hi⟩, ha⟩; exact ⟨a, d, hi, ha⟩
    · rintro ⟨a, d, hi, ha⟩; exact ⟨a, ⟨d, hi⟩, ha⟩
  | imulDestNotReg =>
    rw [← not_iff_not, imul_check_iff]
    simp [Broken, isReg_iff]
  | leaSourceNotInd =>
    rw [← not_iff_not, leaSource_check_iff]
    simp [Broken, isInd_iff]
  | leaDestNotReg =>
    rw [← not_iff_not, leaDest_check_iff]
    simp [Broken, isReg_iff]
  | targetNotLabel =>
    rw [← not_iff_not, target_check_iff]
    simp [Broken, isLbl_iff]
  | unresolvedLabel =>
    simp only [Instr.breaks, Instr.labels, List.any_eq_true, List.mem_flatMap, Bool.not_eq_true',
      resolved_eq_false_iff, mem_labels_iff, Broken]
    constructor
    · rintro ⟨l, ⟨o, ho, rfl | ⟨m, rfl, hm⟩⟩, hl⟩
      · exact ⟨l, hl, .inl ho⟩
      · exact ⟨l, hl, .inr ⟨m, ho, hm⟩⟩
    · rintro ⟨l, hl, ho | ⟨m, ho, hm⟩⟩
      · exact ⟨l, ⟨_, ho, .inl rfl⟩, hl⟩
      · exact ⟨l, ⟨_, ho, .inr ⟨m, rfl, hm⟩⟩, hl⟩
  | mentionsEsp =>
    simp only [Instr.breaks, Bool.and_eq_true, beq_iff_eq, Option.any_eq_true, stackOperand_eq_some_iff,
      Broken, espOk_iff, not_not]
    constructor
    · rintro ⟨hp, o, ho, he⟩; exact ⟨o, ho, hp, he⟩
    · rintro ⟨o, ho, hp, he⟩; exact ⟨hp, o, ho, he⟩
  | badNumber => exact ⟨nofun, nofun⟩

/-! ## The reported reason -/

/-- The reasons a term can have, in R70's order. -/
def termReasons : List IllFormedReason :=
  IllFormedReason.ofShape ++ [IllFormedReason.unresolvedLabel, IllFormedReason.mentionsEsp]

theorem mem_termReasons_of_broken {s : State} {i : Instr} {r : IllFormedReason} (h : Broken s i r) :
    r ∈ termReasons := by
  cases r with
  | badNumber => exact h.elim
  | _ => decide

/-- In a list in the order of the numbers, the first that satisfies a test is the least that does. -/
theorem find?_eq_some_iff_least (p : IllFormedReason → Bool) (r : IllFormedReason) :
    ∀ l : List IllFormedReason, l.Pairwise (fun q q' => q.number < q'.number) →
      (l.find? p = some r ↔ r ∈ l ∧ p r = true ∧ ∀ q ∈ l, q.number < r.number → p q = false)
  | [], _ => by simp
  | a :: l, hl => by
    obtain ⟨ha, hl⟩ := List.pairwise_cons.mp hl
    cases hp : p a with
    | true =>
      rw [List.find?_cons_of_pos hp, Option.some.injEq]
      constructor
      · rintro rfl
        refine ⟨List.mem_cons_self, hp, fun q hq hlt => ?_⟩
        rcases List.mem_cons.mp hq with rfl | hq
        · exact absurd hlt (Nat.lt_irrefl _)
        · exact absurd (ha q hq) (Nat.lt_asymm hlt)
      · rintro ⟨hr, -, hleast⟩
        rcases List.mem_cons.mp hr with rfl | hr
        · rfl
        · exact absurd hp (by simp [hleast a List.mem_cons_self (ha r hr)])
    | false =>
      rw [List.find?_cons_of_neg (by simp [hp]), find?_eq_some_iff_least p r l hl]
      constructor
      · rintro ⟨hr, hpr, hleast⟩
        exact ⟨List.mem_cons_of_mem _ hr, hpr, List.forall_mem_cons.mpr ⟨fun _ => hp, hleast⟩⟩
      · rintro ⟨hr, hpr, hleast⟩
        rcases List.mem_cons.mp hr with rfl | hr
        · rw [hp] at hpr; cases hpr
        · exact ⟨hr, hpr, fun q hq => hleast q (List.mem_cons_of_mem _ hq)⟩

theorem illFormed_eq_some_iff (s : State) (i : Instr) (r : IllFormedReason) :
    illFormed s i = some r ↔ Broken s i r ∧ ∀ q, q.number < r.number → ¬ Broken s i q := by
  have hsorted : termReasons.Pairwise fun q q' => q.number < q'.number := by decide
  refine (find?_eq_some_iff_least _ r termReasons hsorted).trans ?_
  simp only [← Bool.not_eq_true, breaks_iff_broken]
  constructor
  · rintro ⟨-, hr, hleast⟩
    exact ⟨hr, fun q hlt hq => hleast q (mem_termReasons_of_broken hq) hlt hq⟩
  · rintro ⟨hr, hleast⟩
    exact ⟨mem_termReasons_of_broken hr, hr, fun q _ hlt => hleast q hlt⟩

theorem illFormed_eq_none_iff (s : State) (i : Instr) : illFormed s i = none ↔ ∀ q, ¬ Broken s i q := by
  refine List.find?_eq_none.trans ?_
  simp only [breaks_iff_broken]
  exact ⟨fun h q hq => h q (mem_termReasons_of_broken hq) hq, fun h q _ => h q⟩

/-- Settles O23: each check is broken as its words say, and the list of reasons is in R70's order. -/
theorem reportedReasonIsTheFirstBrokenCheck : Obligations.ReportedReasonIsTheFirstBrokenCheck :=
  fun s i => ⟨illFormed_eq_some_iff s i, illFormed_eq_none_iff s i⟩

/-! ## The operand table -/

/-- A value is an operand that breaks no check on the parts of an operand (R70 reasons 3 and 9). -/
theorem valueOk_iff (s : State) (o : Operand) :
    ValueOk s o ↔ o.indexIsEsp = false ∧ ∀ l ∈ o.labels, ∃ a, s.labelAddr l = some a := by
  rw [← Bool.not_eq_true, indexIsEsp_iff]
  simp only [mem_labels_iff]
  cases o with
  | imm w => simp [ValueOk]
  | reg r => simp [ValueOk]
  | lbl l => simp [ValueOk]
  | ind m =>
    simp only [ValueOk, IndOk, Operand.ind.injEq, reduceCtorEq, false_or]
    constructor
    · rintro ⟨hindex, hdisp⟩
      exact ⟨fun ⟨_, scale, rfl, h⟩ => hindex _ scale h rfl, fun l ⟨_, rfl, h⟩ => hdisp l h⟩
    · rintro ⟨hindex, hdisp⟩
      exact ⟨fun r scale h hr => hindex ⟨m, scale, rfl, hr ▸ h⟩, fun l h => hdisp l ⟨m, rfl, h⟩⟩

theorem locationOk_iff (s : State) (o : Operand) : LocationOk s o ↔ o.isLocation = true ∧ ValueOk s o := by
  cases o <;> simp [LocationOk, ValueOk, Operand.isLocation]

theorem valueOk_of_amountOk (s : State) {o : Operand} (h : AmountOk o) : ValueOk s o := by
  rcases h with ⟨w, rfl⟩ | rfl <;> trivial

theorem notBothInd_iff (o p : Operand) : NotBothInd o p ↔ ¬ (o.isInd = true ∧ p.isInd = true) := by
  simp only [isInd_iff, NotBothInd]
  exact ⟨fun h ⟨⟨m, hm⟩, n, hn⟩ => h m n ⟨hm, hn⟩, fun h m n ⟨hm, hn⟩ => h ⟨⟨m, hm⟩, n, hn⟩⟩

/-- The two checks on the parts of operands hold exactly when every operand is a value. -/
theorem operands_valueOk_iff (s : State) (i : Instr) : (∀ o ∈ i.operands, ValueOk s o) ↔
    ¬ i.breaks s.params.espOperand s.resolved .indexEsp = true ∧
    ¬ i.breaks s.params.espOperand s.resolved .unresolvedLabel = true := by
  simp only [Instr.breaks, Instr.labels, List.any_eq_true, List.mem_flatMap, Bool.not_eq_true',
    resolved_eq_false_iff, valueOk_iff, not_exists, not_and, Bool.not_eq_true, forall_and, ← ne_eq,
    Option.ne_none_iff_exists']
  exact and_congr_right' ⟨fun h l ⟨o, ho, hl⟩ => h o ho l hl, fun h o ho l hl => h l ⟨o, ho, hl⟩⟩

section
variable (s : State) (i : Instr)

theorem location_check_iff : ¬ i.breaks s.params.espOperand s.resolved .destNotLocation = true ↔
    ∀ d, i.locationSlot = some d → d.isLocation = true := by
  simp [Instr.breaks, Option.any_eq_true]

theorem pair_check_iff : ¬ i.breaks s.params.espOperand s.resolved .twoIndirect = true ↔
    ∀ a b, i.operandPair = some (a, b) → NotBothInd a b := by
  simp [Instr.breaks, Option.any_eq_true, notBothInd_iff]

theorem amount_check_iff : ¬ i.breaks s.params.espOperand s.resolved .badAmount = true ↔
    ∀ a, i.amount = some a → AmountOk a := by
  simp [Instr.breaks, Option.any_eq_true, ← isAmount_iff]

theorem stack_check_iff : ¬ i.breaks s.params.espOperand s.resolved .mentionsEsp = true ↔
    ∀ o, i.stackOperand = some o → EspOk s o := by
  simp only [Instr.breaks, Bool.and_eq_true, beq_iff_eq, Option.any_eq_true, espOk_iff]
  exact ⟨fun h o ho ⟨hp, he⟩ => h ⟨hp, o, ho, he⟩, fun h ⟨hp, o, ho, he⟩ => h o ho ⟨hp, he⟩⟩

end

/-- The checks by slot: what a location, a pair of operands, any operand, an AMT, the operand of a stack
instruction and the operands of Imul, Lea and J have to be. -/
theorem illFormed_eq_none_iff_slots (s : State) (i : Instr) : illFormed s i = none ↔
    (∀ d, i.locationSlot = some d → d.isLocation = true) ∧
    (∀ a b, i.operandPair = some (a, b) → NotBothInd a b) ∧
    (∀ o ∈ i.operands, ValueOk s o) ∧
    (∀ a, i.amount = some a → AmountOk a) ∧
    (∀ o, i.stackOperand = some o → EspOk s o) ∧
    (∀ v d, i = .imul v d → d.isReg = true) ∧
    (∀ m d, i = .lea m d → m.isInd = true) ∧
    (∀ m d, i = .lea m d → d.isReg = true) ∧
    (∀ cc t, i = .j cc t → t.isLbl = true) := by
  rw [← location_check_iff s, ← pair_check_iff s, operands_valueOk_iff, ← amount_check_iff s,
    ← stack_check_iff s, ← imul_check_iff s, ← leaSource_check_iff s, ← leaDest_check_iff s,
    ← target_check_iff s]
  refine List.find?_eq_none.trans ?_
  simp only [IllFormedReason.ofShape, List.cons_append, List.nil_append, List.forall_mem_cons,
    List.not_mem_nil, false_imp_iff, implies_true, and_true]
  tauto

/-- Settles O22: the checks by slot are the row of the table. -/
theorem wellFormedTermsAreTheTable : Obligations.WellFormedTermsAreTheTable := by
  intro s i
  rw [illFormed_eq_none_iff_slots]
  cases i <;> simp only [Instr.locationSlot, Instr.operandPair, Instr.operands, Instr.amount,
    Instr.stackOperand, Admitted, locationOk_iff, isReg_iff, isLbl_iff, isInd_iff, Option.some.injEq,
    Prod.mk.injEq, Instr.imul.injEq, Instr.lea.injEq, Instr.j.injEq, reduceCtorEq, List.mem_cons,
    List.not_mem_nil, or_false, forall_eq_or_imp, forall_eq, forall_eq', IsEmpty.forall_iff, implies_true,
    and_imp, forall_apply_eq_imp_iff, and_self, and_true, true_and]
  case add | sub | and | or | xor | mov | cmp | pop => tauto
  case sar a d | shl a d | shr a d =>
    have hvalue := valueOk_of_amountOk s (o := a)
    tauto
  case imul v d =>
    constructor
    · rintro ⟨⟨hv, -⟩, hd⟩; exact ⟨hv, hd⟩
    · rintro ⟨hv, r, rfl⟩; exact ⟨⟨hv, trivial⟩, r, rfl⟩
  case lea m d =>
    constructor
    · rintro ⟨⟨hm, -⟩, ⟨n, rfl⟩, hd⟩; exact ⟨⟨n, rfl, hm⟩, hd⟩
    · rintro ⟨⟨n, rfl, hn⟩, r, rfl⟩; exact ⟨⟨hn, trivial⟩, ⟨n, rfl⟩, r, rfl⟩
  case j cc t =>
    constructor
    · rintro ⟨ht, l, rfl⟩; obtain ⟨a, ha⟩ := ht; exact ⟨l, a, rfl, ha⟩
    · rintro ⟨l, a, rfl, ha⟩; exact ⟨⟨a, ha⟩, l, rfl⟩

end Sys2Proof.Proofs
end

section
/-! PROOFS. Frames (10_state.md R12 to R17, 20_memory.md R35): what each instruction's next state is made of,
said once, and what it therefore leaves unchanged. -/

namespace Sys2Proof.Proofs

open Sys2Proof.Machine Sys2Proof.Claims

/-! ## What the next state of an instruction is made of -/

theorem advance_addDraws_zero (s u : State) : advance s u = advance s (u.addDraws 0) := rfl

/-- A store after which no flag is set, in the form of one after which some are. -/
theorem advance_of_store {s u : State} {o : Operand} {v : Word} (hu : store s o v = .ok u) :
    advance s u = advance s ((u.setFlags s.flags).addDraws 0) := by
  rw [setFlags_of_flags_eq (store_sameBut s u o v hu).flags]; rfl

/-- An instruction that writes one location stores there, and sets the flags, the draws and EIP besides. -/
theorem writesOnly_next {i : Instr} {dst : Operand} {s t : State} (h : exec i s = .next t)
    (hw : WritesOnly i dst) : ∃ v u f n, store s dst v = .ok u ∧
      t = advance s ((u.setFlags f).addDraws n) ∧ (WritesNoFlag i → f = s.flags) ∧
      ((∀ a d, i ≠ .shl a d) → n = 0) := by
  cases i <;> cases hw <;> replace h := ((runTerm_next _ _ _ _).mp h).2
  case neg.refl =>
    obtain ⟨d, -, h⟩ := bind_ok.mp h
    obtain ⟨u, hu, h⟩ := bind_ok.mp h
    cases h
    exact ⟨_, u, _, 0, hu, advance_addDraws_zero _ _, nofun, fun _ => rfl⟩
  case add.refl | sub.refl | and.refl | or.refl | xor.refl =>
    obtain ⟨v, d, u, -, -, hu, rfl⟩ := (combine_ok _ _ _ _ _ _).mp h
    exact ⟨_, u, _, 0, hu, advance_addDraws_zero _ _, nofun, fun _ => rfl⟩
  case sar.refl | shr.refl =>
    obtain ⟨c, n, d, u, -, -, -, hu, rfl⟩ := (shift_ok _ _ _ _ _ _).mp h
    exact ⟨_, u, _, 0, hu, advance_addDraws_zero _ _, nofun, fun _ => rfl⟩
  case shl.refl =>
    obtain ⟨c, -, h⟩ := bind_ok.mp h
    obtain ⟨n, -, h⟩ := bind_ok.mp h
    obtain ⟨d, -, h⟩ := bind_ok.mp h
    obtain ⟨u, hu, h⟩ := bind_ok.mp h
    cases h
    exact ⟨_, u, _, _, hu, rfl, nofun, fun hne => absurd rfl (hne _ _)⟩
  case not.refl | setb.refl | mov.refl =>
    obtain ⟨v, -, h⟩ := bind_ok.mp h
    obtain ⟨u, hu, h⟩ := bind_ok.mp h
    cases h
    exact ⟨_, u, s.flags, 0, hu, advance_of_store hu, fun _ => rfl, fun _ => rfl⟩

theorem imul_next {s t : State} {src dst : Operand} (h : exec (.imul src dst) s = .next t) :
    ∃ v u f, store s dst v = .ok u ∧ t = advance s ((u.setFlags f).addDraws 2) := by
  obtain ⟨v, -, h⟩ := bind_ok.mp ((runTerm_next _ _ _ _).mp h).2
  obtain ⟨d, -, h⟩ := bind_ok.mp h
  obtain ⟨u, hu, h⟩ := bind_ok.mp h
  cases h; exact ⟨_, u, _, hu, rfl⟩

theorem lea_next {s t : State} {src dst : Operand} (h : exec (.lea src dst) s = .next t) :
    ∃ a u, store s dst a = .ok u ∧ t = advance s u := by
  obtain ⟨a, -, h⟩ := bind_ok.mp ((runTerm_next _ _ _ _).mp h).2
  obtain ⟨u, hu, h⟩ := bind_ok.mp h
  cases h; exact ⟨a, u, hu, rfl⟩

/-- The state with `v` on the new stack slot and ESP on that slot. -/
def pushed (s : State) (v : Word) : State :=
  (s.setMem (writeWord s.mem (pushSlot s) v)).setReg .esp (pushSlot s)

theorem pushed_esp (s : State) (v : Word) : (pushed s v).reg .esp = pushSlot s :=
  State.setReg_reg_same _ _ _

theorem pushed_reg_other (s : State) (v : Word) {q : Reg} (hq : q ≠ .esp) : (pushed s v).reg q = s.reg q :=
  State.setReg_reg_other _ _ q _ hq

/-- The word pushed stands where ESP points. -/
theorem pushed_top (s : State) (v : Word) : readWord (pushed s v).mem (pushSlot s) = v :=
  readWord_writeWord_same _ _ _

/-- ESP moves back up to where it was. -/
theorem pushSlot_add_four (s : State) : pushSlot s + 4#32 = s.reg .esp := BitVec.sub_add_cancel _ _

theorem push_next {s t : State} {src : Operand} (h : exec (.push src) s = .next t) :
    illFormed s (.push src) = none ∧ ∃ v, value (pushView s) src = .ok v ∧
      validAddr s.params (pushSlot s) = true ∧ t = advance s (pushed s v) := by
  obtain ⟨hi, h⟩ := (runTerm_next _ _ _ _).mp h
  obtain ⟨v, hv, h⟩ := bind_ok.mp h
  obtain ⟨u, hu, h⟩ := bind_ok.mp h
  obtain ⟨hslot, rfl⟩ := (memWrite_ok _ _ _ _).mp hu
  cases h; exact ⟨hi, v, hv, hslot, rfl⟩

theorem call_next {s t : State} {src : Operand} (h : exec (.call src) s = .next t) :
    ∃ a, validAddr s.params (pushSlot s) = true ∧ t = (pushed s s.nextPc).setPc a := by
  obtain ⟨early, u, a, -, hu, -, rfl⟩ := (callBody_ok _ _ _).mp ((runTerm_next _ _ _ _).mp h).2
  obtain ⟨hslot, rfl⟩ := (pushReturn_ok _ _).mp hu
  exact ⟨a, hslot, rfl⟩

theorem pop_next {s t : State} {dst : Operand} (h : exec (.pop dst) s = .next t) :
    ∃ u, store (popView s) dst (readWord s.mem (s.reg .esp)) = .ok u ∧ t = advance s (popFinish s u) := by
  obtain ⟨v, hv, h⟩ := bind_ok.mp ((runTerm_next _ _ _ _).mp h).2
  obtain ⟨u, hu, h⟩ := bind_ok.mp h
  cases h
  obtain ⟨-, rfl⟩ := (memRead_ok _ _ _).mp hv
  exact ⟨u, hu, rfl⟩

theorem jmp_next {s t : State} {src : Operand} (h : exec (.jmp src) s = .next t) : ∃ a, t = s.setPc a := by
  obtain ⟨a, -, h⟩ := bind_ok.mp ((runTerm_next _ _ _ _).mp h).2
  cases h; exact ⟨a, rfl⟩

theorem j_next {s t : State} {cc : CondCode} {target : Operand} (h : exec (.j cc target) s = .next t) :
    ∃ a, t = s.setPc a := by
  obtain ⟨a, -, h⟩ := bind_ok.mp ((runTerm_next _ _ _ _).mp h).2
  cases h; exact ⟨_, rfl⟩

theorem ret_next {s t : State} (h : exec .ret s = .next t) : ∃ a, t = (espUp s).setPc a := by
  obtain ⟨a, -, h⟩ := bind_ok.mp ((runTerm_next _ _ _ _).mp h).2
  cases h; exact ⟨a, rfl⟩

/-! ## What stays the same -/

theorem sameProgram_of_exec {i : Instr} {s t : State} (h : exec i s = .next t) : SameProgram s t :=
  have e := exec_effect i s t h
  ⟨e.status, e.code, e.labels, e.params⟩

theorem sameMemory_of_mem {s t : State} (h : t.mem = s.mem) : SameMemory s t := fun _ => by rw [h]

/-- A store to an Ind leaves every byte outside the word at its address. -/
theorem store_sameOutside {s u : State} {m : Ind} {a v : Word} (ha : effAddr s m = .ok a)
    (hu : store s (.ind m) v = .ok u) : SameOutside s u a := by
  obtain ⟨-, rfl⟩ := store_mem_ind s u m a v ha hu
  exact setMem_writeWord_sameOutside s a v

/-- Settles O32: the next state is that of the store, but for flags, draws and EIP. -/
theorem oneLocationFrame : Obligations.OneLocationFrame := by
  intro i dst s t hw h
  have hprogram := sameProgram_of_exec h
  obtain ⟨v, u, f, n, hu, rfl, -, hdraws⟩ := writesOnly_next h hw
  refine ⟨fun q hq => store_reg_other s u dst v hu q hq, ?_, ?_, hprogram, fun hne => ?_⟩
  · rintro r rfl; exact sameMemory_of_mem (store_mem_reg s u r v hu)
  · rintro m a rfl ha b hb; exact store_sameOutside ha hu b hb
  · rw [hdraws hne]; exact (store_sameBut s u dst v hu).draws

/-- Settles O33: Imul and Lea store to their register and set nothing else but flags, draws and EIP. -/
theorem registerOnlyFrame : Obligations.RegisterOnlyFrame := by
  intro src r s t
  refine ⟨fun h => ?_, fun h => ?_⟩
  · have hprogram := sameProgram_of_exec h
    obtain ⟨v, u, f, hu, rfl⟩ := imul_next h
    cases hu
    exact ⟨fun q hq => State.setReg_reg_other s r q v hq, sameMemory_of_mem rfl, hprogram⟩
  · have hprogram := sameProgram_of_exec h
    obtain ⟨a, u, hu, rfl⟩ := lea_next h
    cases hu
    exact ⟨fun q hq => State.setReg_reg_other s r q a hq, sameMemory_of_mem rfl, hprogram, rfl, rfl⟩

/-- Settles O34: both leave `pushed`, and EIP besides. -/
theorem pushCallFrame : Obligations.PushCallFrame := by
  intro src s t h
  have hpushed : SameProgram s t ∧ ∃ v a, t = (pushed s v).setPc a := by
    rcases h with h | h
    · obtain ⟨-, v, -, -, ht⟩ := push_next h
      exact ⟨sameProgram_of_exec h, v, s.nextPc, ht⟩
    · obtain ⟨a, -, ht⟩ := call_next h
      exact ⟨sameProgram_of_exec h, s.nextPc, a, ht⟩
  obtain ⟨hprogram, v, a, rfl⟩ := hpushed
  exact ⟨pushed_esp s v, fun q hq => pushed_reg_other s v hq,
    setMem_writeWord_sameOutside s _ v, rfl, rfl, hprogram⟩

/-- Pop moves ESP up once, before its store or after it; a store to another register does not see which. -/
theorem popFinish_esp {s u : State} {dst : Operand} {v : Word} (hu : store (popView s) dst v = .ok u)
    (hne : dst ≠ .reg .esp) : (popFinish s u).reg .esp = s.reg .esp + 4#32 := by
  have hkeep := store_reg_other _ u dst v hu .esp hne
  by_cases hp : s.params.espOperand = .ia32Order
  · rw [popFinish_of_ia32Order u hp, hkeep, popView_of_ia32Order hp, espUp_esp]
  · rw [popFinish_of_ne u hp, espUp_esp, hkeep, popView_of_ne hp]

theorem popView_reg_other (s : State) {q : Reg} (hq : q ≠ .esp) : (popView s).reg q = s.reg q := by
  by_cases hp : s.params.espOperand = .ia32Order
  · rw [popView_of_ia32Order hp, espUp_reg_other s q hq]
  · rw [popView_of_ne hp]

theorem popFinish_reg_other (s u : State) {q : Reg} (hq : q ≠ .esp) : (popFinish s u).reg q = u.reg q := by
  by_cases hp : s.params.espOperand = .ia32Order
  · rw [popFinish_of_ia32Order u hp]
  · rw [popFinish_of_ne u hp, espUp_reg_other u q hq]

/-- Settles O35: `popView` and `popFinish` change ESP alone, and the store between them changes DEST. -/
theorem popFrame : Obligations.PopFrame := by
  intro dst s t h
  have hprogram := sameProgram_of_exec h
  obtain ⟨u, hu, rfl⟩ := pop_next h
  obtain ⟨hview, hviewMem⟩ := popView_sameBut s
  obtain ⟨hfinish, hfinishMem⟩ := popFinish_sameBut s u
  have hsame := (hview.trans (store_sameBut _ u dst _ hu)).trans hfinish
  refine ⟨popFinish_esp hu, fun q hq hdst => ?_, ?_, ?_, hsame.flags, hsame.draws, hprogram⟩
  · rw [advance_reg, popFinish_reg_other s u hq, store_reg_other _ u dst _ hu q hdst, popView_reg_other s hq]
  · rintro r rfl
    exact sameMemory_of_mem (hfinishMem.trans ((store_mem_reg _ u r _ hu).trans hviewMem))
  · rintro m a rfl ha b hb
    rw [advance_mem, hfinishMem, store_sameOutside ha hu b hb, hviewMem]

/-- Settles O36: Cmp sets flags and EIP, Jmp and J set EIP, Ret moves ESP and sets EIP. -/
theorem noStoreFrame : Obligations.NoStoreFrame := by
  intro s t
  refine ⟨fun a b h => ?_, fun a h => ?_, fun cc a h => ?_, fun h => ?_⟩ <;>
    have hprogram := sameProgram_of_exec h
  · obtain ⟨-, v, d, -, -, rfl⟩ := cmp_next.mp h
    exact ⟨rfl, sameMemory_of_mem rfl, hprogram, rfl⟩
  · obtain ⟨b, rfl⟩ := jmp_next h
    exact ⟨rfl, sameMemory_of_mem rfl, hprogram, rfl, rfl⟩
  · obtain ⟨b, rfl⟩ := j_next h
    exact ⟨rfl, sameMemory_of_mem rfl, hprogram, rfl, rfl⟩
  · obtain ⟨b, rfl⟩ := ret_next h
    exact ⟨espUp_esp s, fun q hq => espUp_reg_other s q hq, sameMemory_of_mem rfl, hprogram, rfl, rfl⟩

/-- Settles O37: the instructions that write no flag are three that write one location, and seven with a frame
of their own. -/
theorem flaglessInstructionsKeepFlags : Obligations.FlaglessInstructionsKeepFlags := by
  intro i s t hi h
  cases i
  case neg | add | sub | imul | and | or | xor | sar | shl | shr | cmp => exact hi.elim
  case not dst | setb _ dst | mov _ dst =>
    obtain ⟨v, u, f, n, -, rfl, hf, -⟩ := writesOnly_next (dst := dst) h rfl
    exact hf trivial
  case lea src dst =>
    obtain ⟨a, u, hu, rfl⟩ := lea_next h
    exact (store_sameBut s u dst a hu).flags
  case push src =>
    obtain ⟨-, v, -, -, rfl⟩ := push_next h; rfl
  case pop dst =>
    obtain ⟨-, -, -, -, hflags, -, -⟩ := popFrame dst s t h; exact hflags
  case jmp src => obtain ⟨a, rfl⟩ := jmp_next h; rfl
  case call src => obtain ⟨a, -, rfl⟩ := call_next h; rfl
  case ret => obtain ⟨a, rfl⟩ := ret_next h; rfl
  case j cc target => obtain ⟨a, rfl⟩ := j_next h; rfl

/-- An instruction that is no transfer ends with the advance of EIP. -/
theorem exec_advance {i : Instr} {s t : State} (hi : ¬ IsTransfer i) (h : exec i s = .next t) :
    ∃ u, t = advance s u := by
  cases i
  case neg dst | add _ dst | sub _ dst | not dst | and _ dst | or _ dst | xor _ dst | sar _ dst | shl _ dst
      | shr _ dst | setb _ dst | mov _ dst =>
    obtain ⟨v, u, f, n, -, rfl, -, -⟩ := writesOnly_next (dst := dst) h rfl; exact ⟨_, rfl⟩
  case imul src dst => obtain ⟨v, u, f, -, rfl⟩ := imul_next h; exact ⟨_, rfl⟩
  case lea src dst => obtain ⟨a, u, -, rfl⟩ := lea_next h; exact ⟨_, rfl⟩
  case push src => obtain ⟨-, v, -, -, rfl⟩ := push_next h; exact ⟨_, rfl⟩
  case pop dst => obtain ⟨u, -, rfl⟩ := pop_next h; exact ⟨_, rfl⟩
  case cmp src2 src1 => obtain ⟨-, v, d, -, -, rfl⟩ := cmp_next.mp h; exact ⟨_, rfl⟩
  case jmp | call | ret | j => exact absurd trivial hi

/-- Settles O38: the advance is to `nextPc`, the layout's `next` where an instruction stands. -/
theorem onlyTransfersLeaveTheSequence : Obligations.OnlyTransfersLeaveTheSequence := by
  intro i s t hi h
  obtain ⟨u, rfl⟩ := exec_advance hi h
  exact ⟨rfl, fun cell hcell => nextPc_of_fetched hcell⟩

/-! ## Two instructions together -/

/-- An operand that neither mentions ESP nor has it as index has the same value wherever ESP points. -/
theorem value_setReg_esp {s : State} {o : Operand} (hm : o.mentionsEsp = false) (hx : o.indexIsEsp = false)
    (a : Word) : value (s.setReg .esp a) o = value s o := by
  cases o with
  | imm w => rfl
  | lbl l => rfl
  | reg r => rw [value_reg, value_reg, State.setReg_reg_other s .esp r a (by simpa [Operand.mentionsEsp] using hm)]
  | ind m =>
    obtain ⟨base, index, disp⟩ := m
    have hbase : baseValue (s.setReg .esp a) base = baseValue s base := by
      cases base with
      | none => rfl
      | some r => exact State.setReg_reg_other s .esp r a (by simpa [Operand.mentionsEsp] using hm)
    have hindex : indexValue (s.setReg .esp a) index = indexValue s index := by
      rcases index with _ | ⟨r, scale⟩
      · rfl
      · have hr : r ≠ .esp := by simpa [Operand.indexIsEsp] using hx
        simp only [indexValue, State.setReg_reg_other s .esp r a hr]
    simp only [value, effAddr, hbase, hindex]
    rfl

/-- A Pop into a register other than ESP is never ill-formed. -/
theorem illFormed_pop_reg (s : State) {r : Reg} (hr : r ≠ .esp) : illFormed s (.pop (.reg r)) = none :=
  (wellFormedTermsAreTheTable s _).mpr ⟨trivial, fun _ => ⟨fun h => hr (Operand.reg.inj h), fun _ h => nomatch h⟩⟩

/-- Settles O39: the word Push leaves at the new ESP is its operand's value, which does not depend on ESP. -/
theorem pushThenPopMovesTheValue : Obligations.PushThenPopMovesTheValue := by
  intro s t src r v h hm hv hr
  obtain ⟨hi, w, hw, hslot, rfl⟩ := push_next h
  have hx : src.indexIsEsp = false := by
    have hb := breaks_eq_false_of_wellFormed hi .indexEsp (by decide)
    simpa [Instr.breaks, Instr.operands] using hb
  have hwv : value (pushView s) src = value s src := by
    by_cases hp : s.params.espOperand = .sequential
    · rw [pushView_of_sequential hp]; exact value_setReg_esp hm hx _
    · rw [pushView_of_ne hp]
  cases hv.symm.trans (hwv.symm.trans hw)
  have hesp : (advance s (pushed s v)).reg .esp = pushSlot s := pushed_esp s v
  have hread : readWord (advance s (pushed s v)).mem ((advance s (pushed s v)).reg .esp) = v := by
    rw [hesp]; exact pushed_top s v
  have hvalid : validAddr (advance s (pushed s v)).params ((advance s (pushed s v)).reg .esp) = true := by
    rw [hesp]; exact hslot
  have hpop := (exec_pop_of_store (illFormed_pop_reg _ hr) hvalid).2 _ (store_reg _ r _)
  obtain ⟨hpopEsp, hpopOther, -, -, hflags, -, -⟩ := popFrame _ _ _ hpop
  have hback := (hpopEsp (by simpa using hr)).trans (by rw [hesp, pushSlot_add_four])
  refine ⟨_, hpop, ?_, hback, fun q hq => ?_, hflags⟩
  · rw [advance_reg, popFinish_reg_other _ _ hr, State.setReg_reg_same, hread]
  · by_cases hqe : q = .esp
    · rw [hqe]; exact hback
    · rw [hpopOther q hqe (by simpa using hq.symm), advance_reg, pushed_reg_other s v hqe]

/-- Settles O40: Ret reads the return address Call left at the new ESP. -/
theorem callThenRetReturns : Obligations.CallThenRetReturns := by
  intro s t src h
  obtain ⟨a, hslot, rfl⟩ := call_next h
  have hesp : ((pushed s s.nextPc).setPc a).reg .esp = pushSlot s := pushed_esp s _
  have hret := (retRule ((pushed s s.nextPc).setPc a)).2 (by rw [hesp]; exact hslot)
  rw [hesp, show readWord ((pushed s s.nextPc).setPc a).mem (pushSlot s) = s.nextPc from pushed_top s _] at hret
  refine ⟨_, hret, rfl, fun cell hcell => nextPc_of_fetched hcell, fun q => ?_, rfl⟩
  by_cases hq : q = .esp
  · rw [hq, State.setPc_reg, State.setReg_reg_same, pushSlot_add_four]
  · rw [State.setPc_reg, State.setReg_reg_other _ _ _ _ hq, State.setPc_reg, pushed_reg_other s _ hq]

end Sys2Proof.Proofs
end

section
/-! PROOFS. The draw counter (60_exceptions.md R152, logs 8 to 10): every shared operation with the counter
moved gives its result with the counter moved, and so does every instruction that takes no draw. -/

namespace Sys2Proof.Proofs

open Sys2Proof.Machine Sys2Proof.Claims

/-- `b'` is `b`, with the draw counter of its answer moved by `n`. -/
def Moved (n : Nat) (b' b : Except Fault State) : Prop := b' = b.map fun t => t.addDraws n

section
variable {n : Nat} (s : State)

theorem Moved.ok {t' t : State} (h : t' = t.addDraws n) : Moved n (.ok t') (.ok t) := by rw [h]; rfl

/-- A value that is the same for both may be read first. -/
theorem Moved.bind_same {α : Type} {f' f : α → Except Fault State} (x : Except Fault α)
    (h : ∀ a, Moved n (f' a) (f a)) : Moved n (x >>= f') (x >>= f) := by
  cases x with
  | error e => rfl
  | ok a => exact h a

theorem Moved.bind {x' x : Except Fault State} {f' f : State → Except Fault State} (hx : Moved n x' x)
    (h : ∀ t, Moved n (f' (t.addDraws n)) (f t)) : Moved n (x' >>= f') (x >>= f) := by
  rw [hx]
  cases x with
  | error e => rfl
  | ok t => exact h t

theorem value_addDraws (o : Operand) : value (s.addDraws n) o = value s o := by cases o <;> rfl

theorem memWrite_moved (a v : Word) : Moved n (memWrite (s.addDraws n) a v) (memWrite s a v) := by
  unfold Moved memWrite
  rw [State.addDraws_params]
  split <;> rfl

theorem store_moved (o : Operand) (v : Word) : Moved n (store (s.addDraws n) o v) (store s o v) := by
  cases o with
  | imm w => rfl
  | lbl l => rfl
  | reg r => rfl
  | ind m => exact Moved.bind_same (effAddr s m) fun a => memWrite_moved s a v

theorem combine_moved (src dst : Operand) (f : Word → Word → Word) (g : Word → Word → Flags) :
    Moved n (combine (s.addDraws n) src dst f g) (combine s src dst f g) := by
  unfold combine
  simp only [value_addDraws]
  exact .bind_same _ fun v => .bind_same _ fun d => (store_moved s dst _).bind fun t => .ok rfl

theorem shift_moved (amt dst : Operand) (f : Word → Nat → Word) (g : Word → Bool) :
    Moved n (shift (s.addDraws n) amt dst f g) (shift s amt dst f g) := by
  unfold shift
  simp only [value_addDraws]
  exact .bind_same _ fun c => .bind_same (shiftCount s c) fun k => .bind_same _ fun d =>
    (store_moved s dst _).bind fun t => .ok rfl

theorem pushView_addDraws : pushView (s.addDraws n) = (pushView s).addDraws n := by
  unfold pushView
  rw [State.addDraws_params]
  cases s.params.espOperand <;> rfl

theorem popView_addDraws : popView (s.addDraws n) = (popView s).addDraws n := by
  unfold popView
  rw [State.addDraws_params]
  cases s.params.espOperand <;> rfl

theorem popFinish_addDraws (t : State) : popFinish (s.addDraws n) (t.addDraws n) = (popFinish s t).addDraws n := by
  unfold popFinish
  rw [State.addDraws_params]
  cases s.params.espOperand <;> rfl

theorem callTarget_addDraws (src : Operand) (early : Word) :
    callTarget src (s.addDraws n) early = callTarget src s early := by
  unfold callTarget
  rw [State.addDraws_params, value_addDraws]

theorem callBody_moved (src : Operand) : Moved n (callBody src (s.addDraws n)) (callBody src s) := by
  unfold callBody
  rw [pushView_addDraws, value_addDraws]
  refine .bind_same _ fun early => Moved.bind ?_ fun t => ?_
  · exact (memWrite_moved s _ _).bind fun t => .ok rfl
  · rw [callTarget_addDraws]; exact .bind_same _ fun a => .ok rfl

theorem runTerm_moved {i : Instr} {b' b : Except Fault State} (h : Moved n b' b) :
    runTerm (s.addDraws n) i b' = moveDraws n (runTerm s i b) := by
  have hi : illFormed (s.addDraws n) i = illFormed s i := illFormed_eq s _ rfl rfl i
  unfold runTerm
  rw [hi, h]
  cases illFormed s i with
  | some r => rfl
  | none => cases b <;> rfl

theorem leaAddr_addDraws (o : Operand) : leaAddr (s.addDraws n) o = leaAddr s o := by cases o <;> rfl

theorem jumpTarget_addDraws (o : Operand) : jumpTarget (s.addDraws n) o = jumpTarget s o := by cases o <;> rfl

end

theorem shlDraws_of_not_either {p : Config.Params} (hp : p.shl1Of ≠ .either) (k : Nat) (d : Word) :
    shlDraws p k d = false := by
  rw [shlDraws_eq]; exact decide_eq_false fun ⟨_, _, h⟩ => hp h

/-- Where `Shl1OfPolicy` is not `Either`, OF after Shl is no draw's (R101). -/
theorem shl1Overflow_of_not_either {p : Config.Params} (hp : p.shl1Of ≠ .either) (old : Bool) (d : Word)
    (k l : Nat) : shl1Overflow p old d k = shl1Overflow p old d l := by
  unfold shl1Overflow
  cases h : p.shl1Of with
  | either => exact absurd h hp
  | unchanged => rfl
  | cleared => rfl

/-- Settles O50: only Imul, and Shl under `Either`, pass the counter to a flag. -/
theorem drawsReachOnlyImulAndShl : Obligations.DrawsReachOnlyImulAndShl := by
  intro i s n hi
  cases i <;> refine runTerm_moved s ?_
  case imul => exact absurd trivial hi
  case neg dst | not dst | setb _ dst =>
    rw [value_addDraws]
    exact .bind_same _ fun d => (store_moved s dst _).bind fun t => .ok rfl
  case add | sub | and | or | xor => exact combine_moved s _ _ _ _
  case sar | shr => exact shift_moved s _ _ _ _
  case shl amt dst =>
    simp only [value_addDraws]
    refine .bind_same _ fun c => .bind_same (shiftCount s c) fun k => .bind_same _ fun d =>
      (store_moved s dst _).bind fun t => .ok ?_
    simp only [State.addDraws_params, shlDraws_of_not_either hi,
      shl1Overflow_of_not_either hi _ d (s.addDraws n).draws s.draws]
    rfl
  case lea src dst =>
    rw [leaAddr_addDraws]
    exact .bind_same _ fun a => (store_moved s dst _).bind fun t => .ok rfl
  case mov src dst =>
    rw [value_addDraws]
    exact .bind_same _ fun v => (store_moved s dst _).bind fun t => .ok rfl
  case push src =>
    rw [pushView_addDraws, value_addDraws]
    exact .bind_same _ fun v => (memWrite_moved s _ _).bind fun t => .ok rfl
  case pop dst =>
    rw [popView_addDraws]
    refine .bind_same (memRead s _) fun v => (store_moved _ dst _).bind fun t => ?_
    rw [popFinish_addDraws]; exact .ok rfl
  case cmp src2 src1 =>
    simp only [value_addDraws]
    exact .bind_same _ fun v => .bind_same _ fun d => .ok rfl
  case jmp src => rw [value_addDraws]; exact .bind_same _ fun a => .ok rfl
  case call src => exact callBody_moved s src
  case ret => exact .bind_same (memRead s _) fun a => .ok rfl
  case j cc target => rw [jumpTarget_addDraws]; exact .bind_same _ fun a => .ok rfl

end Sys2Proof.Proofs
end

section
/-! PROOFS. Launch and load (10_state.md R21, 20_memory.md R41, R42, 70_reset_and_hazards.md R160): the launch
state of every choice of the arbitrary values, and the program of every text that meets its requirements. -/

namespace Sys2Proof.Proofs

open Sys2Proof.Machine

/-! ## Reset and launch -/

/-- Settles O51: the values are those written in `State.reset`. -/
theorem resetHoldsTheDecidedValues : Obligations.ResetHoldsTheDecidedValues :=
  ⟨rfl, rfl, rfl, by decide, rfl, rfl, rfl⟩

/-- Settles O52: `State.launch` writes ESP and the word at `ESP_INIT`, and nothing else that is given. -/
theorem everyChoiceIsALaunchState : Obligations.EveryChoiceIsALaunchState := by
  intro p code labels reg0 flags0 mem0 hp hmem hprogram hterms hentry
  have hespInit : p.espInit.toNat % 4 = 0 := by obtain ⟨-, -, -, h, -, -⟩ := hp; exact h
  exact ⟨⟨rfl, ⟨rfl, hentry⟩, RegFile.get_set_same reg0 .esp _, readWord_writeWord_same _ _ _,
    ⟨writeWord_wf _ _ _ hespInit hmem, hp, hprogram⟩, hterms⟩,
    fun q hq => RegFile.get_set_other _ _ _ _ hq, rfl, fun b hb => readByte_writeWord_other _ _ _ _ hb⟩

/-! ## A placed text -/

theorem placeText_isChain (last : Word) : ∀ text : List Line,
    (placeText last text).IsChain fun c d => c.2.next.toNat = d.1
  | [] => .nil
  | [_] => .singleton _
  | _ :: ln :: rest => .cons_cons rfl (placeText_isChain last (ln :: rest))

theorem placeText_getLast?_next (last : Word) : ∀ text : List Line,
    ∀ c ∈ (placeText last text).getLast?, c.2.next = last
  | [], _, h => by cases h
  | [_], _, h => by cases h; rfl
  | _ :: ln :: rest, c, h => placeText_getLast?_next last (ln :: rest) c h

section
variable {q : Program}

/-- The k-th line of a text is a cell of the code. -/
theorem Program.cell_mem {k : Nat} {ln : Line} (h : q.text[k]? = some ln) :
    (ln.addr.toNat, { instr := ln.instr, next := (q.text[k + 1]?.map Line.addr).getD q.last : CodeCell })
      ∈ q.code :=
  List.mem_of_getElem? (i := k) (by rw [Program.code, placeText_getElem?, h]; rfl)

theorem Program.code_keys : q.code.map Prod.fst = (q.text.map Line.addr).map BitVec.toNat :=
  placeText_keys q.last q.text

theorem Program.code_distinct (h : (q.text.map Line.addr).Nodup) : DistinctKeys q.code := by
  rw [DistinctKeys, Program.code_keys]
  exact h.map fun _ _ => BitVec.eq_of_toNat_eq

/-- At an address that is no line's, no instruction stands. -/
theorem Program.lookup_code_eq_none {a : Word} (h : a ∉ q.text.map Line.addr) :
    lookup a.toNat q.code = none := by
  rw [lookup_eq_none, Program.code_keys]
  intro hm
  obtain ⟨b, hb, hab⟩ := List.mem_map.mp hm
  exact h (BitVec.eq_of_toNat_eq hab ▸ hb)

/-- `next` of a placed text follows the text, and ends at an address at which no instruction stands. -/
theorem Program.nextFollows (h : q.last ∉ q.text.map Line.addr) : NextFollows q.code := by
  refine ⟨placeText_isChain q.last q.text, Option.all_eq_true_iff_get _ _ |>.mpr fun hc => ?_⟩
  rw [placeText_getLast?_next q.last q.text _ (Option.get_mem hc), Program.lookup_code_eq_none h]
  rfl

/-- Every label of a program resolves to a line's address or to a data label's. -/
theorem Program.label_target {p : Config.Params} (hd : DistinctKeys q.code)
    (hdata : (q.data.all fun d => validAddr p d.2) = true) {l : Nat × Word} (hl : l ∈ q.labels) :
    (lookup l.2.toNat q.code).isSome = true ∨ validAddr p l.2 = true := by
  obtain ⟨l, a⟩ := l
  rcases (Program.mem_labels q l a).mp hl with ⟨ln, hln, -, -, -, rfl⟩ | ⟨d, hd, -, rfl⟩
  · obtain ⟨k, hk⟩ := List.mem_iff_getElem?.mp hln
    exact .inl (Option.isSome_iff_exists.mpr ⟨_, lookup_of_distinct hd (Program.cell_mem hk)⟩)
  · exact .inr (List.all_eq_true.mp hdata d hd)

/-- A launched program that meets the layout's requirements is well-formed. -/
theorem Program.launch_programWf {p : Config.Params} (h : q.wf p) (reg0 : RegFile) (flags0 : Flags)
    (mem0 : Memory) : (State.launch p q.code q.labels reg0 flags0 mem0).programWf := by
  obtain ⟨haddr, hlast, hhalt, hlabels, hdata⟩ := h
  have hcode := Program.code_distinct haddr
  refine ⟨hcode, fun c hc => ?_, Program.nextFollows hlast, Program.lookup_code_eq_none hhalt, hlabels,
    fun l hl => Program.label_target hcode hdata hl⟩
  have hkey : c.1 ∈ (q.text.map Line.addr).map BitVec.toNat :=
    Program.code_keys ▸ List.mem_map_of_mem hc
  obtain ⟨a, -, ha⟩ := List.mem_map.mp hkey
  rw [← ha]; exact a.isLt

/-- A line's labels resolve to its address. -/
theorem Program.lookup_line_label (h : DistinctKeys q.labels) {ln : Line} (hln : ln ∈ q.text) {l : Label}
    (hl : l ∈ ln.labels) : lookup l.val q.labels = some ln.addr :=
  lookup_of_distinct h ((Program.mem_labels q _ _).mpr (.inl ⟨ln, hln, l, hl, rfl, rfl⟩))

end

/-- Settles O53: distinct addresses and labels make each entry of the placed program the one found. -/
theorem loadedProgramIsWellFormed : Obligations.LoadedProgramIsWellFormed := by
  rintro p q reg0 flags0 mem0 _ hq rfl
  refine ⟨Program.launch_programWf hq _ _ _, fun k ln hk => ?_, fun d hd => ?_, fun a ha => ?_⟩
  all_goals obtain ⟨haddr, -, -, hlabels, -⟩ := hq
  · exact ⟨lookup_of_distinct (Program.code_distinct haddr) (Program.cell_mem hk),
      fun l hl => Program.lookup_line_label hlabels (List.mem_of_getElem? hk) hl⟩
  · exact lookup_of_distinct hlabels ((Program.mem_labels q _ _).mpr (.inr ⟨d, hd, rfl, rfl⟩))
  · refine Program.lookup_code_eq_none fun hm => ?_
    obtain ⟨ln, hln, rfl⟩ := List.mem_map.mp hm
    exact ha ln hln rfl

/-! ## The reference layout -/

/-- After line k of the reference layout comes the address 4 further, the last line's too. -/
theorem programRL4_next (lines : List (List Label × Instr)) (data : List (Label × Word)) {k : Nat}
    {c : List Label × Instr} (hk : lines[k]? = some c) :
    (((programRL4 lines data).text[k + 1]?.map Line.addr).getD (programRL4 lines data).last) = addrRL4 (k + 1) := by
  have hlt := (List.getElem?_eq_some_iff.mp hk).1
  rw [programRL4, textRL4_getElem?]
  rcases Nat.lt_or_ge (k + 1) lines.length with h | h
  · simp only [List.getElem?_eq_getElem h, Option.map_some, Option.getD_some, Nat.zero_add]
  · simp only [List.getElem?_eq_none h, Option.map_none, Option.getD_none, show lines.length = k + 1 by omega]

/-- Settles O54: line k of the reference layout is at `addrRL4 k`, its next at `addrRL4 (k + 1)`. -/
theorem referenceLayout : Obligations.ReferenceLayout := by
  rintro p lines data k labels i _ ⟨haddr, -, -, hlabels, -⟩ hk rfl
  have hline : (programRL4 lines data).text[k]? = some { addr := addrRL4 k, labels, instr := i } := by
    rw [programRL4, textRL4_getElem?, hk, Nat.zero_add]; rfl
  refine ⟨?_, fun l hl => Program.lookup_line_label hlabels (List.mem_of_getElem? hline) hl⟩
  have hcell := lookup_of_distinct (Program.code_distinct haddr) (Program.cell_mem hline)
  rw [programRL4_next lines data hk, addrRL4_succ] at hcell
  exact hcell

end Sys2Proof.Proofs
end
